-- ==== Sys2Proof/Word.lean ====
section
/-! DEFINITION. The word type of the engine (R11, R12, R20): 64 bits, unsigned, bit 0 least significant. -/

namespace Sys2Proof

/-- A state word, a payload word or a response data word (R20, R40, R60). The operators of R12 are the
core ones of `BitVec`: `^^^`, `|||`, `&&&`, `<<<` (drops bits past bit 63), `>>>` (fills with zeros) and
`*` (modulo 2^64, the rule's `mul64`). -/
abbrev Word := BitVec 64

end Sys2Proof
end

