-- ==== Sys2Proof/Config.lean ====
section
/-! DEFINITION. What one build of the engine fixes (R9, R10): ENTROPY_WIDTH, the only parameter. -/

namespace Sys2Proof

/-- ENTROPY_WIDTH, the width of one draw from the entropy source: exactly the three values R9 admits. -/
inductive EntropyWidth where
  | w16
  | w32
  | w64
  deriving DecidableEq, Repr, Inhabited

/-- The number of bits of one draw. -/
def EntropyWidth.bits : EntropyWidth → Nat
  | .w16 => 16
  | .w32 => 32
  | .w64 => 64

/-- Reading a configured number of bits: "a configuration with any other value is refused" (R9, U13). -/
def EntropyWidth.ofBits (n : Nat) : Option EntropyWidth :=
  if n = 16 then some .w16
  else if n = 32 then some .w32
  else if n = 64 then some .w64
  else none

/-- The width this engine was built with. OPEN in the spec (R9, D11; 91 says that no width is a default),
so it is a constant without a body: no proof can see which of the three it is. See assumption 1. -/
opaque Config.entropyWidth : EntropyWidth

end Sys2Proof
end

