-- ==== Sys2Proof/Syntax.lean ====
section
/-! DEFINITION. The commands as the host means them (`Instr`, one constructor per row of
spec/opcode_table.json) and as they cross the command channel (`Command`, R60). -/

namespace Sys2Proof

/-- A command as it crosses the channel (R60): the 32-bit command word CMD and the payload words
D[0], D[1], ... in order. -/
structure Command where
  cmd : BitVec 32
  payload : List Word
  deriving DecidableEq, Repr

/-- The five commands (R62). The only operands are payload words (R63): `d` is D[0], D[1], .... -/
inductive Instr where
  /-- NEXT: one draw (R80). -/
  | next
  /-- SEED: explicit-seed construction (R100). -/
  | seed (d : List Word)
  /-- SETSEED: re-seed that keeps the cursor (R103). -/
  | setseed (d : List Word)
  /-- SELFSEED: construction from the entropy source (R110). -/
  | selfseed
  /-- GETSTATE: read-only snapshot (R120). -/
  | getstate
  deriving DecidableEq, Repr

end Sys2Proof
end

