-- ==== Sys2Proof/Machine/State.lean ====
section
/-! DEFINITION. The state of the engine and of what stands at its ports, the reasons a step can stop, and
the state after reset. -/

namespace Sys2Proof.Machine

/-- One draw: an unsigned value of exactly the bits of an admitted ENTROPY_WIDTH, with no bits above them (R40,
R44, R146). -/
structure Draw where
  width : EntropyWidth
  value : BitVec width.bits
  deriving DecidableEq, Repr

/-- One answer of the entropy source to one request (R146). Every answer is arbitrary (R116). -/
inductive EntropyAnswer where
  | ok (e : Draw)
  | fail
  deriving DecidableEq, Repr

/-- What the world outside the engine does next: the host, the entropy source and the reset input (R19,
R160). The order in which these happen is data, so a claim about every state holds for every interleaving
(assumption 2). -/
inductive Input where
  /-- The host issues its next command, once the one before it has its response (R51). -/
  | command (c : Command)
  /-- The entropy source answers the outstanding request (R146). -/
  | entropy (a : EntropyAnswer)
  /-- The reset input, or power lost and back (R160, R151). -/
  | reset
  /-- The host issues a command and a reset arrives before its response (R161). -/
  | resetDuring (c : Command)
  /-- A second, unsynchronised host issues a command (R52). -/
  | secondHost (c : Command)
  deriving DecidableEq, Repr

/-- The completion status of a command (R131). -/
inductive Status where
  | ok
  | errIllegal
  | errUnseeded
  | errEntropy
  deriving DecidableEq, Repr

/-- The errors a command can raise (R131, R132, R133, R134). -/
inductive EngineError where
  | illegal
  | unseeded
  | entropy
  deriving DecidableEq, Repr

/-- A response (R60): the 8-bit STATUS and the data words. -/
structure Response where
  status : BitVec 8
  data : List Word
  deriving DecidableEq, Repr

/-- The machine. `S`, `CUR` and `SEEDED` are the engine's whole architectural state (R20, R22, R25, R31);
`none` is the spec's own ⊥, "holds no value" (R13, R32). The other fields are the model's: the command in
progress, the build parameter and what has crossed or will cross the ports. -/
structure State where
  /-- The state array S[0..15] (R20). -/
  S : Vector (Option Word) 16
  /-- The cursor, 0..15 (R25). -/
  CUR : Option (Fin 16)
  /-- The seeded flag (R22). -/
  SEEDED : Bool
  /-- A SELFSEED waiting on the entropy port (R117): the draws answered so far, first draw first. -/
  pending : Option (List Draw)
  /-- ENTROPY_WIDTH, fixed for the life of the engine (R9). -/
  entropyWidth : EntropyWidth
  /-- What the outside world does next, in order. -/
  inputs : List Input
  /-- The responses produced so far, oldest first (R60; a record R140 allows the model). -/
  responses : List Response
  deriving DecidableEq, Repr

/-- Why the machine has no next step. -/
inductive Fault where
  /-- `step`: the engine is idle and no command comes; it takes no step of its own (R19, R160). Safe:
  the run stops where the hardware waits. -/
  | awaitingCommand
  /-- `step`: SELFSEED waits for an answer that does not come; "a stuck run, not a success" (R117, R147).
  Safe: the run stops where the hardware waits. -/
  | awaitingEntropy
  /-- NEXT and GETSTATE: a location holding ⊥ is read although SEEDED = 1. R13 says that no rule does this;
  it happens only in states that R22 rules out. Safe: no value is invented. -/
  | readOfNoValue
  deriving DecidableEq, Repr

/-- What the model does not admit. -/
inductive Refusal where
  /-- `exec`: the instruction has no meaning yet. Safe. -/
  | notModelled (mnemonic : String)
  /-- `step`: a second unsynchronised host; "a model of more than one host ... is refused" (R52, R149,
  R168). Safe: nothing can be proved of such a run. -/
  | unsynchronisedHosts
  /-- `step`: the entropy source answers although the engine requested nothing, which the port protocol of
  R146 does not contain. Safe: nothing can be proved of such a run. -/
  | unrequestedAnswer
  /-- `step`: the entropy source answers a draw of another width than the engine's; "the port admits only
  ENTROPY_WIDTH-bit values" (R146; 95_test_vectors.md, "Masking"). Safe: nothing can be proved of such a run. -/
  | unadmittedDraw
  deriving DecidableEq, Repr

/-- What a meaning or a step answers. -/
abbrev Result := Host.Outcome State Fault Refusal

/-- The machine right after reset (R32, R160): SEEDED = 0 and S and CUR hold no value; no command is in
progress, nothing has come in and nothing has gone out. -/
def State.reset : State where
  S := Vector.replicate 16 none
  CUR := none
  SEEDED := false
  pending := none
  entropyWidth := Config.entropyWidth
  inputs := []
  responses := []

end Sys2Proof.Machine
end

