-- ==== Sys2Proof/Machine/Ops.lean ====
section
/-! DEFINITION. The named operations on the state: reading and writing S and CUR, responding, raising an
error, and reset. Every meaning is written over these. -/

namespace Sys2Proof.Machine

/-! ### Writes, one field each -/

/-- `S[i] <- w` (R13). -/
def State.writeWord (i : Fin 16) (w : Word) (s : State) : State := { s with S := s.S.set i (some w) }

/-- `S[i] <- D[i]` for every i (R42); a word that is not there would leave ⊥. -/
def State.loadArray (d : List Word) (s : State) : State :=
  { s with S := Vector.ofFn fun i : Fin 16 => d[i.val]? }

/-- `CUR <- c` (R13). -/
def State.writeCur (c : Fin 16) (s : State) : State := { s with CUR := some c }

/-- The command in progress changes. -/
def State.withPending (p : Option (List Draw)) (s : State) : State := { s with pending := p }

/-- What the outside world still has to do. -/
def State.withInputs (l : List Input) (s : State) : State := { s with inputs := l }

/-! ### Reads -/

/-- Reading S[i]; no rule reads a word that holds ⊥ (R13), so that read has no result. -/
def State.readWord (s : State) (i : Fin 16) (k : Word → Result) : Result :=
  match s.S[i] with
  | some w => k w
  | none => .fault .readOfNoValue

/-- Reading CUR; as for a word. -/
def State.readCur (s : State) (k : Fin 16 → Result) : Result :=
  match s.CUR with
  | some c => k c
  | none => .fault .readOfNoValue

/-- The words of a list of locations, if every one holds a value. -/
def allValues : List (Option Word) → Option (List Word)
  | [] => some []
  | none :: _ => none
  | some w :: rest => (allValues rest).map (w :: ·)

/-- Reading S[0], S[1], ..., S[15] (R120); as for a word. -/
def State.readArray (s : State) (k : List Word → Result) : Result :=
  match allValues s.S.toList with
  | some ws => k ws
  | none => .fault .readOfNoValue

/-- The host's index into its command sequence: one per completed command (R24). Nothing in the engine
reads it. -/
def State.position (s : State) : Nat := s.responses.length

/-! ### Responses and errors -/

/-- Status codes (R131). -/
def Status.code : Status → BitVec 8
  | .ok => 0x00#8
  | .errIllegal => 0x01#8
  | .errUnseeded => 0x02#8
  | .errEntropy => 0x03#8

/-- `respond(status, words)` (R14, R60): the command completes with exactly this response. -/
def State.respond (st : Status) (data : List Word) (s : State) : State :=
  { s with responses := s.responses ++ [{ status := st.code, data := data }] }

/-- The engine becomes UNSEEDED: SEEDED <- 0, and S and CUR hold no value (R22, R134, R160). -/
def State.unseed (s : State) : State :=
  { s with S := Vector.replicate 16 none, CUR := none, SEEDED := false }

/-- Raising an error, the engine's whole exception entry (R139): the response carries the code and no data,
and the state changes only as R131's last column says. Nothing is saved and there is no return from it
(R140): the engine then takes the next command. -/
def State.raise : EngineError → State → State
  | .illegal, s => s.respond .errIllegal []
  | .unseeded, s => s.respond .errUnseeded []
  | .entropy, s => s.unseed.respond .errEntropy []

/-- Reset (R160, R161): the engine becomes UNSEEDED and a command in progress is aborted without a
response. ENTROPY_WIDTH is a build parameter and stays (R9, R27). -/
def State.applyReset (s : State) : State := s.unseed.withPending none

end Sys2Proof.Machine
end

