-- ==== Sys2Proof/Machine/Flags.lean ====
section
/-! DEFINITION. SEEDED, the engine's only flag (R22, R23): who sets it and who checks it. `State.unseed` of
Machine/Ops.lean clears it together with the values it guards. -/

namespace Sys2Proof.Machine

/-- `SEEDED <- 1` (R22). -/
def State.markSeeded (s : State) : State := { s with SEEDED := true }

/-- `if SEEDED = 0 : raise ERR_UNSEEDED` (R133), checked before any state is read (R138). -/
def whenSeeded (s : State) (k : State → Result) : Result :=
  if s.SEEDED then k s else .next (s.raise .unseeded)

end Sys2Proof.Machine
end

