-- ==== Sys2Proof/Machine/Entropy.lean ====
section
/-! DEFINITION. The entropy port and the assembly of state words from its answers (R110 to R117, R146). -/

namespace Sys2Proof.Machine

/-- Draws per state word: 64 / ENTROPY_WIDTH (R112, R113, R114). -/
def drawsPerWord : EntropyWidth → Nat
  | .w16 => 4
  | .w32 => 2
  | .w64 => 1

/-- Draws of one whole SELFSEED (R115). -/
def totalDraws (w : EntropyWidth) : Nat := 16 * drawsPerWord w

/-- `zext_64(e)` (R12): a draw as a 64-bit word. -/
def Draw.zext (d : Draw) : Word := d.value.setWidth 64

/-- The answers that the port of an engine of width `w` admits: `fail`, and `ok(e)` with e of ENTROPY_WIDTH bits
(R146). -/
def EntropyAnswer.admitted (w : EntropyWidth) : EntropyAnswer → Bool
  | .ok d => d.width == w
  | .fail => true

/-- The loop of R114: draw k of what is left, masked to 16 bits, goes to bits [16 k + 15 : 16 k]. -/
def assemble16 : Nat → List Word → Word
  | _, [] => 0#64
  | k, e :: es => ((e &&& 0xFFFF#64) <<< (16 * k)) ||| assemble16 (k + 1) es

/-- `assemble()`: one state word from its zero-extended draws, first draw in the least significant chunk (R41,
R112, R113, R114). -/
def assemble (w : EntropyWidth) (draws : List Word) : Word :=
  match w, draws with
  | .w64, e :: _ => e
  | .w32, a :: b :: _ => (a &&& 0x00000000FFFFFFFF#64) ||| (b <<< 32)
  | .w16, es => assemble16 0 es
  | _, _ => 0#64

/-- S[0], S[1], ... from all draws in order: each word's draws are complete before the next word's (R111). -/
def assembleArray (w : EntropyWidth) (draws : List Draw) : List Word :=
  (List.range 16).map fun i =>
    assemble w (((draws.map Draw.zext).drop (i * drawsPerWord w)).take (drawsPerWord w))

/-- What came of asking the port for draws. -/
inductive DrawRun where
  /-- Every draw was answered: the draws, and what the world does next. -/
  | complete (draws : List Draw) (rest : List Input)
  /-- A draw answered `fail`. -/
  | failed (rest : List Input)
  /-- An answer is outstanding: the draws so far, and what the world does next, which is no answer that the port
  admits. -/
  | waiting (draws : List Draw) (rest : List Input)
  deriving DecidableEq, Repr

/-- One request at a time, in order, until all draws of a SELFSEED of width `w` are there, one of them fails, or no
answer that the port admits comes (R115, R146). `got` are the draws already answered. -/
def takeDraws (w : EntropyWidth) (got : List Draw) : List Input → DrawRun
  | .entropy (.ok d) :: rest =>
    if d.width ≠ w then .waiting got (.entropy (.ok d) :: rest)
    else if totalDraws w ≤ got.length + 1 then .complete (got ++ [d]) rest
    else takeDraws w (got ++ [d]) rest
  | .entropy .fail :: rest => .failed rest
  | [] => .waiting got []
  | .command c :: rest => .waiting got (.command c :: rest)
  | .reset :: rest => .waiting got (.reset :: rest)
  | .resetDuring c :: rest => .waiting got (.resetDuring c :: rest)
  | .secondHost c :: rest => .waiting got (.secondHost c :: rest)

/-- SELFSEED from the draws `got` on (R110): with all draws S is the assembled words, CUR is 0 and SEEDED is
1; a failing draw raises ERR_ENTROPY at once (R134); without an answer the command stays in progress, with
no response and no change the host could see (R117, R45; assumptions 4 and 5). -/
def State.drawEntropy (got : List Draw) (s : State) : State :=
  match takeDraws s.entropyWidth got s.inputs with
  | .complete draws rest =>
    ((((s.withInputs rest).withPending none).loadArray (assembleArray s.entropyWidth draws)).writeCur 0).markSeeded.respond
      .ok []
  | .failed rest => ((s.withInputs rest).withPending none).raise .entropy
  | .waiting draws rest => (s.withInputs rest).withPending (some draws)

end Sys2Proof.Machine
end

