-- ==== Sys2Proof/Machine/Operands.lean ====
section
/-! DEFINITION. The one operand form, the payload D[0..15] of SEED and SETSEED (R42, R43, R63): used as is,
with no extension, scaling or masking. -/

namespace Sys2Proof.Machine

/-- A payload that is not exactly 16 words is answered with ERR_ILLEGAL and changes no state (R43, R66); the
check comes before every other condition (R138). The decoder already refuses such a command, so this is
what the same rule says of an instruction that was never decoded (assumption 15). -/
def withPayload (d : List Word) (s : State) (k : State → Result) : Result :=
  if d.length = 16 then k s else .next (s.raise .illegal)

end Sys2Proof.Machine
end

