-- ==== Sys2Proof/Machine/Seeding.lean ====
section
/-! DEFINITION. The four commands that load or read the whole state array (R100 to R122). -/

namespace Sys2Proof.Machine

/-- SEED (R100): legal in every state (D9); no seed value is rejected (R101). -/
def execSeed (d : List Word) (s : State) : Result :=
  withPayload d s fun s => .next ((((s.loadArray d).writeCur 0).markSeeded).respond .ok [])

/-- SETSEED (R103): as SEED, but on a seeded engine only, and CUR is not written (R104). -/
def execSetseed (d : List Word) (s : State) : Result :=
  withPayload d s fun s => whenSeeded s fun s => .next ((s.loadArray d).respond .ok [])

/-- SELFSEED (R110): legal in every state (D9); it starts with no draw made. -/
def execSelfseed (s : State) : Result := .next (s.drawEntropy [])

/-- GETSTATE (R120): S[0] first; nothing changes (R121). -/
def execGetstate (s : State) : Result :=
  whenSeeded s fun s => s.readArray fun ws => .next (s.respond .ok ws)

end Sys2Proof.Machine
end

