-- ==== Sys2Proof/Machine/Transition.lean ====
section
/-! DEFINITION. NEXT, the one xorshift1024* step (R80 to R89). -/

namespace Sys2Proof.Machine

/-- MULT, the fixed odd constant 1181783497276652981 (R8). -/
def MULT : Word := 0x106689D45497FDB5#64

/-- SHIFT_L1, the left shift applied to state1 (R8). -/
def SHIFT_L1 : Nat := 31

/-- SHIFT_R1, the right shift applied to state1 (R8). -/
def SHIFT_R1 : Nat := 11

/-- SHIFT_R0, the right shift applied to state0 (R8). -/
def SHIFT_R0 : Nat := 30

/-- Steps 4a, 4b, 4c and 5 of R80, in their order: 4b shifts the value that 4a produced (R82). -/
def mix (state0 state1 : Word) : Word :=
  let state1 := state1 ^^^ (state1 <<< SHIFT_L1)
  let state1 := state1 ^^^ (state1 >>> SHIFT_R1)
  let state0 := state0 ^^^ (state0 >>> SHIFT_R0)
  state0 ^^^ state1

/-- Step 6 of R80: the returned word is the stored one times MULT modulo 2^64 (R81). -/
def output (stored : Word) : Word := stored * MULT

/-- NEXT (R80). The cursor advances before state1 is read and before the mix (R82); `c + 1` is
(CUR + 1) mod 16. -/
def execNext (s : State) : Result :=
  whenSeeded s fun s =>
    s.readCur fun c =>
      s.readWord c fun state0 =>
        let s := s.writeCur (c + 1)
        s.readWord (c + 1) fun state1 =>
          let s := s.writeWord (c + 1) (mix state0 state1)
          .next (s.respond .ok [output (mix state0 state1)])

end Sys2Proof.Machine
end

