-- ==== Sys2Proof/Machine/Dispatch.lean ====
section
/-! DEFINITION. One arm per command (R62). -/

namespace Sys2Proof.Machine

def exec (i : Instr) (s : State) : Host.Outcome State Fault Refusal :=
  match i with
  | .next => Sys2Proof.Machine.execNext s
  | .seed d => Sys2Proof.Machine.execSeed d s
  | .setseed d => Sys2Proof.Machine.execSetseed d s
  | .selfseed => Sys2Proof.Machine.execSelfseed s
  | .getstate => Sys2Proof.Machine.execGetstate s

end Sys2Proof.Machine
end

