-- ==== Sys2Proof/WellFormed.lean ====
section
/-! DEFINITION. Which instructions are well formed: payload length takes the place of alignment (R43). -/

namespace Sys2Proof

/-- SEED and SETSEED carry exactly 16 payload words; the other commands carry none, by their form (R43).
Every 64-bit value is legal in every payload word (R63), so nothing else is checked. -/
def Instr.wellFormed : Instr → Bool
  | .next => true
  | .seed d => d.length == 16
  | .setseed d => d.length == 16
  | .selfseed => true
  | .getstate => true

end Sys2Proof
end

