-- ==== Sys2Proof/Decode.lean ====
section
/-! DEFINITION. The decoder of R66, total on every command, and the encoder after it, both from the one
command-word format of R61 and the operation codes of R62. -/

namespace Sys2Proof

/-- OP, bits 3..0 of the command word (R61). -/
def opField (cmd : BitVec 32) : BitVec 4 := cmd.extractLsb' 0 4

/-- RSVD, bits 31..4 of the command word (R61). -/
def rsvdField (cmd : BitVec 32) : BitVec 28 := cmd.extractLsb' 4 28

/-- The assigned operations (R62). -/
inductive Op where
  | next
  | seed
  | setseed
  | selfseed
  | getstate
  deriving DecidableEq, Repr

/-- Operation codes (R62). -/
def Op.code : Op → BitVec 4
  | .next => 0x1#4
  | .seed => 0x2#4
  | .setseed => 0x3#4
  | .selfseed => 0x4#4
  | .getstate => 0x5#4

/-- The operation an OP field names; 0x0 and 0x6 to 0xF are reserved and name none (R62, R67). -/
def Op.ofCode (code : BitVec 4) : Option Op :=
  match code.toNat with
  | 1 => some .next
  | 2 => some .seed
  | 3 => some .setseed
  | 4 => some .selfseed
  | 5 => some .getstate
  | _ => none

/-- How many payload words follow the command word: set by OP alone (R65, the `paylen` of R66). -/
def Op.paylen : Op → Nat
  | .next => 0
  | .seed => 16
  | .setseed => 16
  | .selfseed => 0
  | .getstate => 0

/-- The instruction an operation and its payload make. -/
def Op.toInstr : Op → List Word → Instr
  | .next, _ => .next
  | .seed, d => .seed d
  | .setseed, d => .setseed d
  | .selfseed, _ => .selfseed
  | .getstate, _ => .getstate

/-- Why a command is illegal (R66): the three conditions, in the order the decode procedure tests them. -/
inductive Illegal where
  /-- RSVD is not zero. -/
  | reservedBits
  /-- OP is 0x0 or 0x6 to 0xF. -/
  | reservedOp
  /-- The payload length differs from the count of R62 for that OP. -/
  | payloadLength
  deriving DecidableEq, Repr

/-- The decode procedure of R66. -/
def decode (c : Command) : Except Illegal Instr :=
  if rsvdField c.cmd ≠ 0#28 then .error .reservedBits
  else
    match Op.ofCode (opField c.cmd) with
    | none => .error .reservedOp
    | some op =>
      if c.payload.length ≠ op.paylen then .error .payloadLength
      else .ok (op.toInstr c.payload)

/-- The operation of an instruction. -/
def Instr.op : Instr → Op
  | .next => .next
  | .seed _ => .seed
  | .setseed _ => .setseed
  | .selfseed => .selfseed
  | .getstate => .getstate

/-- The payload words of an instruction, D[0] first (R63). -/
def Instr.payload : Instr → List Word
  | .next => []
  | .seed d => d
  | .setseed d => d
  | .selfseed => []
  | .getstate => []

/-- The command word of an operation: OP in bits 3..0 and zero in RSVD (R61, R62). -/
def Op.commandWord (op : Op) : BitVec 32 := 0#28 ++ op.code

/-- The encoder: the command word, then the payload words in order (R60, R62). -/
def encode (i : Instr) : Command := { cmd := i.op.commandWord, payload := i.payload }

/-! ### A command as one number

The engine has no byte order and no program memory (R40, R55). Where one number must stand for a command,
bits 31..0 are the command word and payload word D[i] is the 64 bits from bit 32 + 64 i up (assumption 12). -/

/-- The payload length that a command word announces, zero for a reserved OP (R65). -/
def announcedPaylen (cmd : BitVec 32) : Nat :=
  match Op.ofCode (opField cmd) with
  | none => 0
  | some op => op.paylen

/-- The lowest `n` 64-bit words of a number, least significant first. -/
def payloadOfBits : Nat → Nat → List Word
  | 0, _ => []
  | n + 1, v => BitVec.ofNat 64 v :: payloadOfBits n (v / 2 ^ 64)

/-- The number whose 64-bit words are the given ones, least significant first. -/
def bitsOfPayload : List Word → Nat
  | [] => 0
  | d :: ds => d.toNat + 2 ^ 64 * bitsOfPayload ds

/-- The command that `nbits` bits of a number spell, every bit above them zero. -/
def commandOfBits (nbits w : Nat) : Command :=
  let v := w % 2 ^ nbits
  let cmd := BitVec.ofNat 32 v
  { cmd := cmd, payload := payloadOfBits (announcedPaylen cmd) (v / 2 ^ 32) }

/-- The number that spells a command, and how many bits it has. -/
def Command.bits (c : Command) : Nat := c.cmd.toNat + 2 ^ 32 * bitsOfPayload c.payload

/-- The length in bits of a command. -/
def Command.bitLength (c : Command) : Nat := 32 + 64 * c.payload.length

/-- The instruction that the decoder reads from `nbits` bits of `w`, none where it refuses. -/
def decodeTableWord (nbits w : Nat) : Option Instr :=
  match decode (commandOfBits nbits w) with
  | .ok i => some i
  | .error _ => none

end Sys2Proof
end

