-- ==== Sys2Proof/Machine/Fetch.lean ====
section
/-! DEFINITION. Which agent moves next: the engine has no program counter and fetches nothing (R24, R55); a
step takes the next thing the outside world does. -/

namespace Sys2Proof.Machine

/-- What the next step is. Each state carried is the one the step acts on, the input taken. -/
inductive Fetched where
  /-- A legal command is accepted: run it. -/
  | instr (i : Instr) (s : State)
  /-- An illegal command is accepted: answer it (R66). -/
  | illegal (s : State)
  /-- The outstanding entropy request is answered: go on drawing from the draws so far (R146). -/
  | draw (got : List Draw) (s : State)
  /-- The reset input (R160, R161). -/
  | reset (s : State)
  /-- Nothing can happen. -/
  | stuck (f : Fault)
  /-- What the model does not admit. -/
  | refuse (r : Refusal)

/-- Accepting a command: decode comes before any other condition (R66, R138). -/
def accept (c : Command) (s : State) : Fetched :=
  match decode c with
  | .ok i => .instr i s
  | .error _ => .illegal s

/-- What only an idle engine takes: while a SELFSEED waits, the host issues nothing before the response
(R51), so the engine goes on waiting (R117). -/
def State.whenIdle (s : State) (f : Fetched) : Fetched :=
  match s.pending with
  | none => f
  | some _ => .stuck .awaitingEntropy

/-- The next thing that happens. An idle engine takes a command or a reset (R160); a waiting one takes an
answer or a reset (R117, R161). A second unsynchronised host is refused always (R52), and so are an answer
to no request (R146, assumption 8) and a draw that the port does not admit (R146, assumption 10). -/
def fetch (s : State) : Fetched :=
  match s.inputs with
  | [] => s.whenIdle (.stuck .awaitingCommand)
  | .command c :: rest => s.whenIdle (accept c (s.withInputs rest))
  | .entropy a :: _ =>
    match s.pending with
    | none => .refuse .unrequestedAnswer
    | some got => if a.admitted s.entropyWidth then .draw got s else .refuse .unadmittedDraw
  | .reset :: rest => .reset (s.withInputs rest)
  | .resetDuring _ :: rest => s.whenIdle (.reset (s.withInputs rest))
  | .secondHost _ :: _ => .refuse .unsynchronisedHosts

/-- The state in which the command that `nbits` bits of `w` spell is the next thing that happens: no command
is in progress and the host issues this one. -/
def issueBits (nbits w : Nat) (s : State) : State :=
  (s.withPending none).withInputs (.command (commandOfBits nbits w) :: s.inputs)

end Sys2Proof.Machine
end

