-- ==== Sys2Proof/Machine/Step.lean ====
section
/-! DEFINITION. One step of the machine. -/

namespace Sys2Proof.Machine

/-- One step: one command from acceptance to response (R45, R51), or the entropy source's next answers to a
command that waits, or a reset. -/
def step (s : State) : Host.Outcome State Fault Refusal :=
  match fetch s with
  | .instr i s' => exec i s'
  | .illegal s' => .next (s'.raise .illegal)
  | .draw got s' => .next (s'.drawEntropy got)
  | .reset s' => .next s'.applyReset
  | .stuck f => .fault f
  | .refuse r => .refused r

/-- A program is the host's command sequence (R24), so placing an instruction where the step takes its next
one is having the host issue it next, the engine between commands (assumption 2). -/
def State.withFetchWord (s : State) (nbits w : Nat) : State := issueBits nbits w s

end Sys2Proof.Machine
end

