-- ==== Sys2Proof/Machine/Assembler.lean ====
section
/-! DEFINITION. The host's textual form of a command sequence (R68 to R71): one command a line, the
pseudo-instructions SKIP and RESUME, and the listing. No engine state is involved. -/

namespace Sys2Proof.Machine

/-- Why a line does not assemble: "the assembler refuses such lines by name" (R68). -/
inductive AsmError where
  /-- The mnemonic is none of R68's five and none of R69's and R70's two. -/
  | unknownMnemonic
  /-- Too few or too many operands (R68). -/
  | operandCount
  /-- An operand is no unsigned integer literal, decimal or 0x hexadecimal (R68). -/
  | notALiteral
  /-- A payload literal is outside 0 .. 2^64 - 1 (R68). -/
  | literalRange
  /-- RESUME's k is outside 0..15 (R70). -/
  | rotationRange
  deriving DecidableEq, Repr

/-- The commands of the pseudo-instruction `SKIP n` (R69). -/
def expandSkip (n : Nat) : List Instr := List.replicate n .next

/-- The command of the pseudo-instruction `RESUME k, d0, ..., d15`: SEED of the words rotated left by `k`
(R70). -/
def expandResume (k : Fin 16) (d : List Word) : List Instr := [.seed (d.rotate k.val)]

/-! ### Literals -/

/-- The value of a hexadecimal digit. -/
def digitValue (c : Char) : Option Nat :=
  if 48 ≤ c.toNat ∧ c.toNat ≤ 57 then some (c.toNat - 48)
  else if 65 ≤ c.toNat ∧ c.toNat ≤ 70 then some (c.toNat - 55)
  else if 97 ≤ c.toNat ∧ c.toNat ≤ 102 then some (c.toNat - 87)
  else none

/-- The value of a digit string in the given base, most significant digit first, after the value `acc`. -/
def digitsValue (base : Nat) : Nat → List Char → Option Nat
  | acc, [] => some acc
  | acc, c :: cs =>
    match digitValue c with
    | some v => if v < base then digitsValue base (acc * base + v) cs else none
    | none => none

/-- An unsigned integer literal, decimal or as 0x hexadecimal (R68). -/
def literal : List Char → Except AsmError Nat
  | '0' :: 'x' :: c :: cs =>
    match digitsValue 16 0 (c :: cs) with
    | some n => .ok n
    | none => .error .notALiteral
  | c :: cs =>
    match digitsValue 10 0 (c :: cs) with
    | some n => .ok n
    | none => .error .notALiteral
  | [] => .error .notALiteral

/-- A payload literal, 0 .. 2^64 - 1 (R68). -/
def payloadLiteral (cs : List Char) : Except AsmError Word :=
  match literal cs with
  | .error e => .error e
  | .ok n => if n < 2 ^ 64 then .ok (BitVec.ofNat 64 n) else .error .literalRange

/-- The payload literals of an operand list. -/
def payloadLiterals : List (List Char) → Except AsmError (List Word)
  | [] => .ok []
  | o :: os =>
    match payloadLiteral o, payloadLiterals os with
    | .ok w, .ok ws => .ok (w :: ws)
    | .error e, _ => .error e
    | .ok _, .error e => .error e

/-! ### Lines -/

/-- Space and tab separate the parts of a line (assumption 13). -/
def isBlank (c : Char) : Bool := c == ' ' || c == '\t'

/-- A text without the blanks at its two ends. -/
def trimBlanks (cs : List Char) : List Char := ((cs.dropWhile isBlank).reverse.dropWhile isBlank).reverse

/-- A line without its comment: a `;` starts a comment that runs to the end of the line (R68). -/
def stripComment (cs : List Char) : List Char := cs.takeWhile (· ≠ ';')

/-- The parts of a text between commas; at least one part. -/
def splitCommas : List Char → List (List Char)
  | [] => [[]]
  | c :: cs =>
    match c == ',', splitCommas cs with
    | true, parts => [] :: parts
    | false, part :: parts => (c :: part) :: parts
    | false, [] => [[c]]

/-- The operands of a line: none, or the parts between its commas (R68). -/
def operands (cs : List Char) : List (List Char) :=
  match trimBlanks cs with
  | [] => []
  | c :: rest => (splitCommas (c :: rest)).map trimBlanks

/-- The sixteen payload words of SEED and SETSEED; the assembler never pads or truncates (R68). -/
def sixteenWords (ops : List (List Char)) : Except AsmError (List Word) :=
  if ops.length = 16 then payloadLiterals ops else .error .operandCount

/-- A command that takes no operand. -/
def noOperands (i : Instr) (ops : List (List Char)) : Except AsmError (List Instr) :=
  if ops.length = 0 then .ok [i] else .error .operandCount

/-- A command that takes sixteen. -/
def seedOperands (mk : List Word → Instr) (ops : List (List Char)) : Except AsmError (List Instr) :=
  match sixteenWords ops with
  | .ok d => .ok [mk d]
  | .error e => .error e

/-- `SKIP n` (R69). -/
def assembleSkip : List (List Char) → Except AsmError (List Instr)
  | [o] =>
    match literal o with
    | .ok n => .ok (expandSkip n)
    | .error e => .error e
  | _ => .error .operandCount

/-- `RESUME k, d0, ..., d15` (R70). -/
def assembleResume : List (List Char) → Except AsmError (List Instr)
  | [] => .error .operandCount
  | o :: os =>
    match sixteenWords os, literal o with
    | .ok d, .ok k => if h : k < 16 then .ok (expandResume ⟨k, h⟩ d) else .error .rotationRange
    | .error e, _ => .error e
    | .ok _, .error e => .error e

/-- What stands on a line beside its comment and the blanks around. -/
def lineText (line : List Char) : List Char := trimBlanks (stripComment line)

/-- The mnemonic of a line in capitals; mnemonics are case-insensitive (R68). -/
def lineMnemonic (line : List Char) : List Char :=
  ((lineText line).takeWhile fun c => !isBlank c).map Char.toUpper

/-- The operands of a line (R68). -/
def lineOperands (line : List Char) : List (List Char) := operands ((lineText line).dropWhile fun c => !isBlank c)

/-- The commands that one line stands for (R68, R69, R70). A line with nothing on it but blanks and a comment
stands for none (assumption 13). -/
def assembleChars (line : List Char) : Except AsmError (List Instr) :=
  let mnemonic := lineMnemonic line
  let ops := lineOperands line
  if mnemonic = [] then .ok []
  else if mnemonic = "NEXT".toList then noOperands .next ops
  else if mnemonic = "SEED".toList then seedOperands .seed ops
  else if mnemonic = "SETSEED".toList then seedOperands .setseed ops
  else if mnemonic = "SELFSEED".toList then noOperands .selfseed ops
  else if mnemonic = "GETSTATE".toList then noOperands .getstate ops
  else if mnemonic = "SKIP".toList then assembleSkip ops
  else if mnemonic = "RESUME".toList then assembleResume ops
  else .error .unknownMnemonic

/-- The commands that one line stands for. -/
def assembleLine (line : String) : Except AsmError (List Instr) := assembleChars line.toList

/-- The commands that a text of lines stands for, in order. -/
def assembleLines : List String → Except AsmError (List Instr)
  | [] => .ok []
  | l :: ls =>
    match assembleLine l, assembleLines ls with
    | .ok is, .ok rest => .ok (is ++ rest)
    | .error e, _ => .error e
    | .ok _, .error e => .error e

/-! ### Listings -/

/-- One row of a program listing (R71): the assembly line, the command word in hexadecimal, the payload words
in hexadecimal, in order, and the expected response. -/
structure ListingRow where
  assembly : List Char
  cmd : List Char
  payload : List (List Char)
  expected : Response
  deriving DecidableEq, Repr

/-- The hexadecimal digit of a value below 16. -/
def hexDigit (n : Nat) : Char := Char.ofNat (if n < 10 then 48 + n else 55 + n)

/-- The `n` lowest hexadecimal digits of a value, most significant first. -/
def hexDigits : Nat → Nat → List Char
  | 0, _ => []
  | n + 1, v => hexDigits n (v / 16) ++ [hexDigit (v % 16)]

/-- A value in hexadecimal with `n` digits, as the spec writes it (R11). -/
def hexText (n v : Nat) : List Char := '0' :: 'x' :: hexDigits n v

/-- The texts of operands, separated by commas (R68). -/
def joinCommas : List (List Char) → List Char
  | [] => []
  | [o] => o
  | o :: o' :: os => o ++ [',', ' '] ++ joinCommas (o' :: os)

/-- The mnemonic of an operation (R68). -/
def opMnemonic : Op → String
  | .next => "NEXT"
  | .seed => "SEED"
  | .setseed => "SETSEED"
  | .selfseed => "SELFSEED"
  | .getstate => "GETSTATE"

/-- The assembly line of a command (R68), its literals in hexadecimal. -/
def assemblyText (i : Instr) : List Char :=
  match i.payload with
  | [] => (opMnemonic i.op).toList
  | d :: ds => (opMnemonic i.op).toList ++ [' '] ++ joinCommas ((d :: ds).map fun w => hexText 16 w.toNat)

/-- The listing row of a command and its expected response. A pseudo-instruction has no row of its own: the
listing shows its expansion (R71). -/
def listingRow (i : Instr) (expected : Response) : ListingRow where
  assembly := assemblyText i
  cmd := hexText 8 (encode i).cmd.toNat
  payload := (encode i).payload.map fun w => hexText 16 w.toNat
  expected := expected

/-- What the host issues to run a command sequence (R24, R60). -/
def issue (is : List Instr) : List Input := is.map fun i => .command (encode i)

end Sys2Proof.Machine
end

