-- ==== Sys2Proof/Machine/Platform.lean ====
section
/-! DEFINITION. Configuring an engine, and several engines side by side (R9, R148). -/

namespace Sys2Proof.Machine

/-- An engine built with the given ENTROPY_WIDTH, right after reset; any width R9 does not admit is refused
as a configuration (U13). -/
def State.configured (bits : Nat) : Option State :=
  (EntropyWidth.ofBits bits).map fun w => { State.reset with entropyWidth := w }

/-- Several engines, each with its own S, CUR and SEEDED (R148). -/
abbrev Platform := List State

/-- One engine's turn in a run of several: it takes its step, or it stays as it is where it waits for its host
(R19) or its entropy (R117), which holds up no other engine (R148, assumption 18). A refusal is no such waiting:
it ends the run (R52, R149). -/
def turn (s : State) : Result :=
  match step s with
  | .next t => .next t
  | .fault .awaitingCommand => .next s
  | .fault .awaitingEntropy => .next s
  | .fault .readOfNoValue => .fault .readOfNoValue
  | .refused r => .refused r

/-- What a step of several engines answers. -/
abbrev PlatformResult := Host.Outcome Platform Fault Refusal

/-- Engine `k` has its turn. Where that is a fault or a refusal, so is the step of all of them: a second
unsynchronised host on one engine refuses the whole (R149). -/
def stepEngine (k : Nat) (p : Platform) : PlatformResult :=
  match p[k]? with
  | none => .next p
  | some s =>
    match turn s with
    | .next t => .next (p.set k t)
    | .fault f => .fault f
    | .refused r => .refused r

/-- Engines have their turns in the given order, up to the first fault or refusal. -/
def stepEngines : List Nat → Platform → PlatformResult
  | [], p => .next p
  | k :: ks, p =>
    match stepEngine k p with
    | .next q => stepEngines ks q
    | .fault f => .fault f
    | .refused r => .refused r

/-- One engine has `n` turns, up to the first fault or refusal. -/
def stepsAlone : Nat → State → Result
  | 0, s => .next s
  | n + 1, s =>
    match turn s with
    | .next t => stepsAlone n t
    | .fault f => .fault f
    | .refused r => .refused r

/-- One answer of a shared entropy source goes to engine `k`, after what that engine's world already holds. -/
def deliver (k : Nat) (a : EntropyAnswer) (p : Platform) : Platform :=
  match p[k]? with
  | none => p
  | some s => p.set k (s.withInputs (s.inputs ++ [.entropy a]))

/-- A shared entropy source's answers in the order it gives them, each with the engine it goes to. The list
is arbitrary, so a claim about every list holds for every interleaving (R148, U10). -/
def deliverAll : List (Nat × EntropyAnswer) → Platform → Platform
  | [], p => p
  | (k, a) :: rest, p => deliverAll rest (deliver k a p)

end Sys2Proof.Machine
end

