-- ==== Sys2Proof/Safety.lean ====
section
/-! DEFINITION. What counts as a good state and a safe step, in the terms the claims use. -/

namespace Sys2Proof.Machine

/-- R22 and R25: SEEDED = 0 exactly when S[0..15] and CUR hold no value, SEEDED = 1 exactly when all of them
hold one. -/
structure State.ValuesAgree (s : State) : Prop where
  /-- A seeded engine has a cursor. -/
  cur_of_seeded : s.SEEDED = true → s.CUR.isSome
  /-- A seeded engine has a value in every word. -/
  words_of_seeded : s.SEEDED = true → ∀ i : Fin 16, s.S[i].isSome
  /-- An unseeded engine has no cursor. -/
  cur_of_unseeded : s.SEEDED = false → s.CUR = none
  /-- An unseeded engine has no value in any word. -/
  words_of_unseeded : s.SEEDED = false → ∀ i : Fin 16, s.S[i] = none

/-- A SELFSEED in progress still has a draw to ask for (R110, R115), and each draw it has is of ENTROPY_WIDTH bits
(R146). -/
def State.PendingShort (s : State) : Prop :=
  ∀ got, s.pending = some got →
    got.length < totalDraws s.entropyWidth ∧ ∀ d ∈ got, d.width = s.entropyWidth

/-- R131: only codes 0x00 to 0x03 are produced, an error carries no data words, and OK carries none, one
(NEXT) or sixteen (GETSTATE). -/
def Response.legal (r : Response) : Bool :=
  r.status ≤ 0x03#8 && (r.status == 0x00#8 || r.data.isEmpty) &&
    (r.data.length == 0 || r.data.length == 1 || r.data.length == 16)

/-- Every response produced so far is legal. -/
def State.ResponsesLegal (s : State) : Prop := ∀ r ∈ s.responses, r.legal = true

/-- The invariant of the machine. -/
structure State.Inv (s : State) : Prop where
  valuesAgree : s.ValuesAgree
  pendingShort : s.PendingShort
  responsesLegal : s.ResponsesLegal

/-- `n` steps, stopping at the first fault or refusal. -/
def State.run : Nat → State → Result
  | 0, s => .next s
  | n + 1, s =>
    match step s with
    | .next t => State.run n t
    | .fault f => .fault f
    | .refused r => .refused r

/-- The entropy source of an engine of width `w` answers these values, one request after another (R146). -/
def answers (w : EntropyWidth) (draws : List (BitVec w.bits)) : List Input :=
  draws.map fun e => .entropy (.ok ⟨w, e⟩)

/-- The next thing that happens is an entropy answer that the port of an engine of width `w` admits. -/
def startsWithAnswer (w : EntropyWidth) : List Input → Bool
  | .entropy a :: _ => a.admitted w
  | _ => false

/-- A command of a given OP with RSVD not zero or a payload length other than `n` is answered with
ERR_ILLEGAL; nothing else changes and no draw is made (R66, R132). -/
def AnswersIllegalForms (op : BitVec 4) (n : Nat) : Prop :=
  ∀ (s : State) (c : Command) (rest : List Input),
    s.pending = none → s.inputs = .command c :: rest → c.cmd.extractLsb' 0 4 = op →
    (c.cmd.extractLsb' 4 28 ≠ 0#28 ∨ c.payload.length ≠ n) →
    step s = .next { s with inputs := rest, responses := s.responses ++ [⟨0x01#8, []⟩] }

/-- A command that decodes to an instruction of the given kind. -/
def decodesTo (p : Instr → Bool) (c : Command) : Bool :=
  match decode c with
  | .ok i => p i
  | .error _ => false

/-- SEED or SELFSEED: the commands that construct (R162). -/
def constructs : Instr → Bool
  | .next => false
  | .seed _ => true
  | .setseed _ => false
  | .selfseed => true
  | .getstate => false

/-- The operands `ops` are sixteen payload literals and `d` their values (R68). -/
structure ReadsAs (ops : List (List Char)) (d : List Word) : Prop where
  operands_sixteen : ops.length = 16
  words_sixteen : d.length = 16
  word_of_operand : ∀ j, j < 16 → ∃ o n, ops[j]? = some o ∧ literal o = .ok n ∧ n < 2 ^ 64 ∧
    d[j]? = some (BitVec.ofNat 64 n)

/-- The relation of R87: `b`'s array is `a`'s rotated left by `k`, and `b`'s cursor is `a`'s less `k`, both
modulo 16. -/
structure RotatedBy (k : Fin 16) (a b : State) : Prop where
  words : ∀ i : Fin 16, b.S[i] = a.S[i + k]
  cursor : b.CUR = a.CUR.map (· - k)

end Sys2Proof.Machine
end

