-- ==== Sys2Proof/Certificates/Slice0/Obligations.lean ====
section
/-! DEFINITION. The statements for the provers. Each docstring names the rules of spec/ it formalises. -/

open Sys2Proof Sys2Proof.Machine

/-! ### Encoding -/

/-- R62, R66: decoding the encoding of a well-formed instruction gives it back, every payload word kept. -/
def Obligations.DecodeOfEncodeIsTheInstruction : Prop :=
  ∀ i : Instr, i.wellFormed = true → decode (encode i) = .ok i

/-- R62, R66, the other direction: a command that decodes is the encoding of the well-formed instruction it
decodes to, so each instruction has one encoding and every other command is illegal. -/
def Obligations.EncodeOfDecodeIsTheCommand : Prop :=
  ∀ (c : Command) (i : Instr), decode c = .ok i → i.wellFormed = true ∧ encode i = c

/-- Assumption 12, the model's own layout of a command as one number: the round trip through it. -/
def Obligations.BitsOfCommandDecodeToTheInstruction : Prop :=
  ∀ i : Instr, i.wellFormed = true →
    decodeTableWord (encode i).bitLength (encode i).bits = some i

/-- R62: the five command words, and no other 32-bit value, are legal. -/
def Obligations.FiveCommandWordsAndNoOther : Prop :=
  decode ⟨0x00000001#32, []⟩ = .ok .next ∧
  (∀ d : List Word, d.length = 16 → decode ⟨0x00000002#32, d⟩ = .ok (.seed d)) ∧
  (∀ d : List Word, d.length = 16 → decode ⟨0x00000003#32, d⟩ = .ok (.setseed d)) ∧
  decode ⟨0x00000004#32, []⟩ = .ok .selfseed ∧
  decode ⟨0x00000005#32, []⟩ = .ok .getstate ∧
  ∀ (cmd : BitVec 32) (d : List Word),
    cmd ∉ [0x00000001#32, 0x00000002#32, 0x00000003#32, 0x00000004#32, 0x00000005#32] →
    ∃ e, decode ⟨cmd, d⟩ = .error e

/-- R66, R132: a command is illegal exactly when one of the rule's three conditions holds; it is then answered
with ERR_ILLEGAL, before any other condition, with no state change and no draw; otherwise its instruction runs. -/
def Obligations.IllegalCommandsAreAnsweredAndChangeNothing : Prop :=
  ∀ (s : State) (c : Command) (rest : List Input),
    s.pending = none → s.inputs = .command c :: rest →
    let op := c.cmd.extractLsb' 0 4
    let paylen := if op = 0x2#4 ∨ op = 0x3#4 then 16 else 0
    if op ∉ [0x1#4, 0x2#4, 0x3#4, 0x4#4, 0x5#4] ∨ c.cmd.extractLsb' 4 28 ≠ 0#28 ∨ c.payload.length ≠ paylen then
      step s = .next { s with inputs := rest, responses := s.responses ++ [⟨0x01#8, []⟩] }
    else
      ∃ i, decode c = .ok i ∧ step s = exec i { s with inputs := rest }

/-- R24, R51: the step of an idle engine at whose channel a legal command stands is that command's meaning, the
command taken from the channel. -/
def Obligations.StepRunsTheDecodedCommand : Prop :=
  ∀ (s : State) (c : Command) (rest : List Input) (i : Instr),
    s.pending = none → s.inputs = .command c :: rest → decode c = .ok i →
    step s = exec i { s with inputs := rest }

/-- The model's own interface (assumptions 2 and 12): placing a row's word makes the very next step run it. -/
def Obligations.PlacedWordRunsNext : Prop :=
  ∀ (s : State) (nbits w : Nat) (i : Instr), decodeTableWord nbits w = some i →
    step (s.withFetchWord nbits w) = exec i { s with pending := none }

/-! ### NEXT -/

/-- R80, R81, R82, R83: NEXT whole. On a seeded engine it completes with the rule's stored word and the
multiplied output and changes CUR and one word only; on an unseeded one it answers ERR_UNSEEDED; its illegal
forms answer ERR_ILLEGAL. -/
def Obligations.NextIsOneXorshiftStep : Prop :=
  decode ⟨0x00000001#32, []⟩ = .ok .next ∧
  (∀ (s : State) (c : Fin 16) (s0 s1 : Word),
    s.SEEDED = true → s.CUR = some c → s.S[c] = some s0 → s.S[c + 1] = some s1 →
    let a := s1 ^^^ (s1 <<< 31)
    let state1 := a ^^^ (a >>> 11)
    let state0 := s0 ^^^ (s0 >>> 30)
    let stored := state0 ^^^ state1
    exec .next s = .next { s with
      CUR := some (c + 1)
      S := s.S.set (c + 1 : Fin 16) (some stored)
      responses := s.responses ++ [⟨0x00#8, [stored * BitVec.ofNat 64 1181783497276652981]⟩] }) ∧
  (∀ s : State, s.SEEDED = false →
    exec .next s = .next { s with responses := s.responses ++ [⟨0x02#8, []⟩] }) ∧
  AnswersIllegalForms 0x1#4 0

/-- R84: the closed form of the stored word and of the output. -/
def Obligations.NextClosedForm : Prop :=
  ∀ (s t : State) (c : Fin 16) (s0 s1 : Word),
    s.SEEDED = true → s.CUR = some c → s.S[c] = some s0 → s.S[c + 1] = some s1 → exec .next s = .next t →
    let u := s1 ^^^ (s1 <<< 31)
    let stored := u ^^^ (u >>> 11) ^^^ s0 ^^^ (s0 >>> 30)
    t.S[c + 1] = some stored ∧
      t.responses = s.responses ++ [⟨0x00#8, [stored * BitVec.ofNat 64 1181783497276652981]⟩]

/-- R83, the frame of NEXT: a NEXT that completes changes at most CUR and the word after the old cursor, and
gives exactly one response; unseeded it changes neither. -/
def Obligations.NextFrame : Prop :=
  ∀ s t : State, exec .next s = .next t →
    (∀ i : Fin 16, (∀ c, s.CUR = some c → i ≠ c + 1) → t.S[i] = s.S[i]) ∧
    (s.SEEDED = false → t.S = s.S ∧ t.CUR = s.CUR) ∧
    t.SEEDED = s.SEEDED ∧ t.pending = s.pending ∧ t.entropyWidth = s.entropyWidth ∧ t.inputs = s.inputs ∧
    ∃ r, t.responses = s.responses ++ [r]

/-- R86: a step that reads two zero words writes 0 and returns 0, and an array of 16 zero words stays all zero and
returns 0 on every NEXT, for any number of them. -/
def Obligations.AllZeroArrayIsAFixedPoint : Prop :=
  (∀ (s : State) (c : Fin 16),
    s.SEEDED = true → s.CUR = some c → s.S[c] = some 0#64 → s.S[c + 1] = some 0#64 →
    exec .next s = .next { s with
      CUR := some (c + 1)
      S := s.S.set (c + 1 : Fin 16) (some 0#64)
      responses := s.responses ++ [⟨0x00#8, [0#64]⟩] }) ∧
  (∀ (n : Nat) (s : State) (c : Fin 16) (rest : List Input),
    s.pending = none → s.SEEDED = true → s.CUR = some c → (∀ i : Fin 16, s.S[i] = some 0#64) →
    s.inputs = issue (expandSkip n) ++ rest →
    ∃ t, s.run n = .next t ∧ (∀ i : Fin 16, t.S[i] = some 0#64) ∧
      t.responses = s.responses ++ List.replicate n ⟨0x00#8, [0#64]⟩)

/-- R85: with equal S and equal CUR, two engines give equal responses to equal command sequences that hold no
SELFSEED, and stay equal, whatever else differs between them. -/
def Obligations.EqualEnginesAnswerAlike : Prop :=
  ∀ (cmds : List Command) (a b : State) (restA restB : List Input),
    a.ValuesAgree → b.ValuesAgree → a.S = b.S → a.CUR = b.CUR → a.pending = none → b.pending = none →
    (∀ c ∈ cmds, decode c ≠ .ok .selfseed) →
    a.inputs = cmds.map .command ++ restA → b.inputs = cmds.map .command ++ restB →
    ∃ (ta tb : State) (out : List Response),
      a.run cmds.length = .next ta ∧ b.run cmds.length = .next tb ∧
      out.length = cmds.length ∧ ta.responses = a.responses ++ out ∧ tb.responses = b.responses ++ out ∧
      ta.S = tb.S ∧ ta.CUR = tb.CUR ∧ ta.SEEDED = tb.SEEDED

/-- R87: rotation equivariance, for any number of NEXT commands. -/
def Obligations.RotatedEnginesGiveEqualOutputs : Prop :=
  ∀ (n : Nat) (k : Fin 16) (a b : State) (restA restB : List Input),
    a.ValuesAgree → a.SEEDED = true → b.SEEDED = true → a.pending = none → b.pending = none → RotatedBy k a b →
    a.inputs = issue (expandSkip n) ++ restA → b.inputs = issue (expandSkip n) ++ restB →
    ∃ (ta tb : State) (out : List Response),
      a.run n = .next ta ∧ b.run n = .next tb ∧ RotatedBy k ta tb ∧ out.length = n ∧
      ta.responses = a.responses ++ out ∧ tb.responses = b.responses ++ out

/-- R88, R166: the cursor counts the successful NEXT commands modulo 16. SETSEED, GETSTATE and error responses
do not advance it, and after SEED the count starts at 0. -/
def Obligations.CursorCountsSuccessfulNexts : Prop :=
  (∀ (cmds : List Command) (s : State) (c : Fin 16) (rest : List Input),
    s.ValuesAgree → s.SEEDED = true → s.CUR = some c → s.pending = none →
    (∀ x ∈ cmds, decodesTo constructs x = false) → s.inputs = cmds.map .command ++ rest →
    ∃ t, s.run cmds.length = .next t ∧
      t.CUR = some (c + Fin.ofNat 16 (cmds.countP (decodesTo (· == .next))))) ∧
  (∀ (d : List Word) (cmds : List Command) (s : State) (rest : List Input),
    d.length = 16 → s.pending = none →
    (∀ x ∈ cmds, decodesTo constructs x = false) →
    s.inputs = .command (encode (.seed d)) :: cmds.map .command ++ rest →
    ∃ t, s.run (cmds.length + 1) = .next t ∧
      t.CUR = some (Fin.ofNat 16 (cmds.countP (decodesTo (· == .next)))))

/-- R89: the stored word is GF(2)-linear in the pair of words read. -/
def Obligations.StoredWordIsLinear : Prop :=
  ∀ (a b x ta tb tx : State) (c : Fin 16) (a0 a1 b0 b1 : Word),
    a.SEEDED = true → b.SEEDED = true → x.SEEDED = true →
    a.CUR = some c → b.CUR = some c → x.CUR = some c →
    a.S[c] = some a0 → a.S[c + 1] = some a1 → b.S[c] = some b0 → b.S[c + 1] = some b1 →
    x.S[c] = some (a0 ^^^ b0) → x.S[c + 1] = some (a1 ^^^ b1) →
    exec .next a = .next ta → exec .next b = .next tb → exec .next x = .next tx →
    ∃ va vb, ta.S[c + 1] = some va ∧ tb.S[c + 1] = some vb ∧ tx.S[c + 1] = some (va ^^^ vb)

/-! ### SEED, SETSEED, GETSTATE -/

/-- R100, R101: SEED whole. It completes on every 16-word payload, in every state, with S[i] = D[i], CUR = 0 and
SEEDED = 1; its illegal forms answer ERR_ILLEGAL. -/
def Obligations.SeedLoadsThePayloadAndZeroesTheCursor : Prop :=
  (∀ d : List Word, d.length = 16 → decode ⟨0x00000002#32, d⟩ = .ok (.seed d)) ∧
  (∀ (d : Vector Word 16) (s : State),
    exec (.seed d.toList) s = .next { s with
      S := Vector.ofFn fun i : Fin 16 => some d[i]
      CUR := some 0
      SEEDED := true
      responses := s.responses ++ [⟨0x00#8, []⟩] }) ∧
  AnswersIllegalForms 0x2#4 16

/-- R103, R104: SETSEED whole. On a seeded engine it completes with S[i] = D[i] and CUR as it was; on an unseeded
one it answers ERR_UNSEEDED; its illegal forms answer ERR_ILLEGAL. -/
def Obligations.SetseedLoadsThePayloadAndKeepsTheCursor : Prop :=
  (∀ d : List Word, d.length = 16 → decode ⟨0x00000003#32, d⟩ = .ok (.setseed d)) ∧
  (∀ (d : Vector Word 16) (s : State), s.SEEDED = true →
    exec (.setseed d.toList) s = .next { s with
      S := Vector.ofFn fun i : Fin 16 => some d[i]
      responses := s.responses ++ [⟨0x00#8, []⟩] }) ∧
  (∀ (d : Vector Word 16) (s : State), s.SEEDED = false →
    exec (.setseed d.toList) s = .next { s with responses := s.responses ++ [⟨0x02#8, []⟩] }) ∧
  AnswersIllegalForms 0x3#4 16

/-- R43 on an instruction that was never decoded (assumption 15): a SEED or SETSEED whose payload is not 16 words
answers ERR_ILLEGAL and changes nothing, whether the engine is seeded or not. -/
def Obligations.WrongPayloadLengthIsIllegal : Prop :=
  ∀ (d : List Word) (s : State), d.length ≠ 16 →
    exec (.seed d) s = .next { s with responses := s.responses ++ [⟨0x01#8, []⟩] } ∧
    exec (.setseed d) s = .next { s with responses := s.responses ++ [⟨0x01#8, []⟩] }

/-- R120, R121, R47: GETSTATE whole. On a seeded engine it completes with the sixteen stored words, S[0] first,
and changes nothing, so a second one returns the same words; on an unseeded one it answers ERR_UNSEEDED; its
illegal forms answer ERR_ILLEGAL. -/
def Obligations.GetstateReturnsTheArrayAndChangesNothing : Prop :=
  decode ⟨0x00000005#32, []⟩ = .ok .getstate ∧
  (∀ (ws : Vector Word 16) (s : State), s.SEEDED = true → (∀ i : Fin 16, s.S[i] = some ws[i]) →
    exec .getstate s = .next { s with responses := s.responses ++ [⟨0x00#8, ws.toList⟩] } ∧
    exec .getstate { s with responses := s.responses ++ [⟨0x00#8, ws.toList⟩] } =
      .next { s with responses := s.responses ++ [⟨0x00#8, ws.toList⟩, ⟨0x00#8, ws.toList⟩] }) ∧
  (∀ s : State, s.SEEDED = false →
    exec .getstate s = .next { s with responses := s.responses ++ [⟨0x02#8, []⟩] }) ∧
  AnswersIllegalForms 0x5#4 0

/-- R21, R22, R45: the frame of SEED, SETSEED and GETSTATE. All of S is written or none of it; CUR is written by
SEED alone of the three and SEEDED likewise; each gives exactly one response and asks the entropy port nothing. -/
def Obligations.SeedingFrame : Prop :=
  ∀ (d : List Word) (i : Instr) (s t : State),
    i = .seed d ∨ i = .setseed d ∨ i = .getstate → exec i s = .next t →
    (t.S = s.S ∨ ∀ j : Fin 16, t.S[j] = d[j.val]?) ∧
    (i = .getstate → t.S = s.S) ∧
    ((∀ d, i ≠ .seed d) → t.CUR = s.CUR ∧ t.SEEDED = s.SEEDED) ∧
    t.pending = s.pending ∧ t.entropyWidth = s.entropyWidth ∧ t.inputs = s.inputs ∧
    ∃ r, t.responses = s.responses ++ [r]

/-- R48, its SEED and SETSEED sentences: issuing either twice with the same payload leaves the same state as
issuing it once. -/
def Obligations.SeedingTwiceIsSeedingOnce : Prop :=
  ∀ (d : List Word) (i : Instr) (s t u : State),
    i = .seed d ∨ i = .setseed d → exec i s = .next t → exec i t = .next u →
    u.S = t.S ∧ u.CUR = t.CUR ∧ u.SEEDED = t.SEEDED ∧ u.pending = t.pending ∧ u.inputs = t.inputs ∧
      u.entropyWidth = t.entropyWidth

/-- R102: two SEED commands with equal payloads, on any two engines between commands, each followed by the same
number of NEXT commands, give equal outputs. -/
def Obligations.SeedReproducesTheSequence : Prop :=
  ∀ (d : List Word) (n : Nat) (a b : State) (restA restB : List Input),
    d.length = 16 → a.pending = none → b.pending = none →
    a.inputs = issue (.seed d :: expandSkip n) ++ restA → b.inputs = issue (.seed d :: expandSkip n) ++ restB →
    ∃ (ta tb : State) (out : List Response),
      a.run (n + 1) = .next ta ∧ b.run (n + 1) = .next tb ∧ out.length = n + 1 ∧
      (∀ r ∈ out, r.status = 0x00#8) ∧
      ta.responses = a.responses ++ out ∧ tb.responses = b.responses ++ out

/-- R70, R167: RESUME k, W is SEED of d(k mod 16), d((k+1) mod 16), ..., d((k+15) mod 16), and a snapshot taken at
cursor c and resumed by RESUME c on any engine between commands continues the snapshotted sequence exactly, for any
number of draws. -/
def Obligations.ResumeContinuesTheSnapshot : Prop :=
  (∀ (k : Fin 16) (d : Vector Word 16), ∃ r : List Word,
    expandResume k d.toList = [.seed r] ∧ r.length = 16 ∧ ∀ i : Fin 16, r[i.val]? = some d[i + k]) ∧
  (∀ (m : Nat) (c : Fin 16) (w : Vector Word 16) (a b : State) (restA restB : List Input),
    a.SEEDED = true → a.CUR = some c → (∀ i : Fin 16, a.S[i] = some w[i]) → a.pending = none → b.pending = none →
    a.inputs = issue (.getstate :: expandSkip m) ++ restA →
    b.inputs = issue (expandResume c w.toList ++ expandSkip m) ++ restB →
    ∃ (ta tb : State) (out : List Response),
      a.run (m + 1) = .next ta ∧ b.run (m + 1) = .next tb ∧ out.length = m ∧
      (∀ r ∈ out, r.status = 0x00#8) ∧
      ta.responses = a.responses ++ ⟨0x00#8, w.toList⟩ :: out ∧
      tb.responses = b.responses ++ ⟨0x00#8, []⟩ :: out)

/-- R122: a plain SEED of a snapshot continues the snapshotted sequence when the cursor was 0, and for some
snapshot at another cursor it does not. -/
def Obligations.PlainSeedContinuesFromCursorZeroAndCanDifferElsewhere : Prop :=
  (∀ (m : Nat) (w : Vector Word 16) (a b : State) (restA restB : List Input),
    a.SEEDED = true → a.CUR = some 0 → (∀ i : Fin 16, a.S[i] = some w[i]) → a.pending = none → b.pending = none →
    a.inputs = issue (.getstate :: expandSkip m) ++ restA →
    b.inputs = issue (.seed w.toList :: expandSkip m) ++ restB →
    ∃ (ta tb : State) (out : List Response),
      a.run (m + 1) = .next ta ∧ b.run (m + 1) = .next tb ∧ out.length = m ∧
      ta.responses = a.responses ++ ⟨0x00#8, w.toList⟩ :: out ∧
      tb.responses = b.responses ++ ⟨0x00#8, []⟩ :: out) ∧
  (∃ (w : Vector Word 16) (a b ta tb : State) (ra rb : Response) (c : Fin 16),
    c ≠ 0 ∧ a.SEEDED = true ∧ a.CUR = some c ∧ (∀ i : Fin 16, a.S[i] = some w[i]) ∧
    exec (.seed w.toList) a = .next b ∧ exec .next a = .next ta ∧ exec .next b = .next tb ∧
    ta.responses = a.responses ++ [ra] ∧ tb.responses = b.responses ++ [rb] ∧ ra ≠ rb)

/-! ### SELFSEED and the entropy port -/

/-- R110, R111, R112, R113, R114, R134: SELFSEED whole. When every draw is answered it completes with S[0] filled
first, each word from its zero-extended draws of ENTROPY_WIDTH bits with the first in the least significant chunk, for
each of the three widths, CUR = 0 and SEEDED = 1. A draw that answers `fail` ends it at once with ERR_ENTROPY: no later draw is made, the engine is
UNSEEDED and S and CUR hold no value, whatever they held before. Its illegal forms answer ERR_ILLEGAL. -/
def Obligations.SelfseedConstructsFromTheDrawsOrFails : Prop :=
  decode ⟨0x00000004#32, []⟩ = .ok .selfseed ∧
  (∀ (s : State) (draws : List (BitVec s.entropyWidth.bits)) (rest : List Input) (e : Nat → Word),
    draws.length = 16 * (64 / s.entropyWidth.bits) → s.inputs = answers s.entropyWidth draws ++ rest →
    (∀ j, j < draws.length → draws[j]?.map (BitVec.setWidth 64) = some (e j)) →
    exec .selfseed s = .next { s with
      S := Vector.ofFn fun i : Fin 16 => some (match s.entropyWidth with
        | .w64 => e i
        | .w32 => (e (2 * i) &&& 0x00000000FFFFFFFF#64) ||| (e (2 * i + 1) <<< 32)
        | .w16 => (e (4 * i) &&& 0xFFFF#64) ||| ((e (4 * i + 1) &&& 0xFFFF#64) <<< 16) |||
            ((e (4 * i + 2) &&& 0xFFFF#64) <<< 32) ||| ((e (4 * i + 3) &&& 0xFFFF#64) <<< 48))
      CUR := some 0
      SEEDED := true
      pending := none
      inputs := rest
      responses := s.responses ++ [⟨0x00#8, []⟩] }) ∧
  (∀ (s : State) (draws : List (BitVec s.entropyWidth.bits)) (rest : List Input),
    draws.length < 16 * (64 / s.entropyWidth.bits) →
    s.inputs = answers s.entropyWidth draws ++ .entropy .fail :: rest →
    exec .selfseed s = .next { s with
      S := Vector.replicate 16 none
      CUR := none
      SEEDED := false
      pending := none
      inputs := rest
      responses := s.responses ++ [⟨0x03#8, []⟩] }) ∧
  AnswersIllegalForms 0x4#4 0

/-- R117: with an answer outstanding SELFSEED has no response, and if none comes the engine has no step; nothing
but the draws so far has changed (the last part is assumption 4, the model's own). -/
def Obligations.UnansweredDrawLeavesTheEngineStuck : Prop :=
  ∀ (s : State) (draws : List (BitVec s.entropyWidth.bits)),
    draws.length < 16 * (64 / s.entropyWidth.bits) → s.inputs = answers s.entropyWidth draws →
    let got := draws.map (Draw.mk s.entropyWidth)
    exec .selfseed s = .next { s with pending := some got, inputs := [] } ∧
    step { s with pending := some got, inputs := [] } = .fault .awaitingEntropy

/-- R146, R147, assumption 5 (the model's own): answers that come after a wait are taken as if SELFSEED had found
them at once. -/
def Obligations.LateAnswersGiveTheSameSelfseed : Prop :=
  ∀ (s t : State) (draws : List (BitVec s.entropyWidth.bits)) (late : List Input),
    draws.length < 16 * (64 / s.entropyWidth.bits) → startsWithAnswer s.entropyWidth late = true →
    exec .selfseed { s with inputs := answers s.entropyWidth draws } = .next t →
    step { t with inputs := late } = exec .selfseed { s with inputs := answers s.entropyWidth draws ++ late }

/-- R115: a SELFSEED that succeeds makes exactly 16 x (64 / ENTROPY_WIDTH) draws, and one that fails makes every
draw up to and including the one that failed, and no more. -/
def Obligations.SelfseedDrawCount : Prop :=
  ∀ s t : State, exec .selfseed s = .next t → t.pending = none →
    (t.responses = s.responses ++ [⟨0x00#8, []⟩] ∧ ∃ draws : List (BitVec s.entropyWidth.bits),
      draws.length = 16 * (64 / s.entropyWidth.bits) ∧ s.inputs = answers s.entropyWidth draws ++ t.inputs) ∨
    (t.responses = s.responses ++ [⟨0x03#8, []⟩] ∧ ∃ draws : List (BitVec s.entropyWidth.bits),
      draws.length < 16 * (64 / s.entropyWidth.bits) ∧
      s.inputs = answers s.entropyWidth draws ++ .entropy .fail :: t.inputs)

/-- The frame of SELFSEED: it leaves ENTROPY_WIDTH alone and takes only a beginning of what the world does; while
it waits it has changed none of S, CUR, SEEDED and given no response (assumption 4), and else it has given one
response. -/
def Obligations.SelfseedFrame : Prop :=
  ∀ s t : State, exec .selfseed s = .next t →
    t.entropyWidth = s.entropyWidth ∧ t.inputs <:+ s.inputs ∧
    (t.pending ≠ none → t.S = s.S ∧ t.CUR = s.CUR ∧ t.SEEDED = s.SEEDED ∧ t.responses = s.responses) ∧
    (t.pending = none → ∃ r, t.responses = s.responses ++ [r])

/-- R40, R44, R111 to R114: of the draws of one SELFSEED, each of ENTROPY_WIDTH bits, draw `j` is exactly the bits
ENTROPY_WIDTH * k and up of word `i`, where j = i * (64 / ENTROPY_WIDTH) + k. So the masks of R113 and R114 change
nothing (95, "Masking") and no bit of a draw is lost. -/
def Obligations.EachDrawFillsItsOwnBits : Prop :=
  ∀ (w : EntropyWidth) (draws : List (BitVec w.bits)), draws.length = 16 * (64 / w.bits) →
    ∀ i k : Nat, i < 16 → k < 64 / w.bits →
      ∃ v : Word, (assembleArray w (draws.map (Draw.mk w)))[i]? = some v ∧
        draws[i * (64 / w.bits) + k]? = some (v.extractLsb' (w.bits * k) w.bits)

/-- R146 and 95, "Masking": "the port admits only ENTROPY_WIDTH-bit values". SELFSEED takes no draw of another
width, and where one comes as the outstanding answer the run is refused (the refusal is assumption 10, the model's
own form). -/
def Obligations.DrawsOfAnotherWidthAreNotAdmitted : Prop :=
  ∀ (s : State) (draws : List (BitVec s.entropyWidth.bits)) (d : Draw) (rest : List Input),
    draws.length < 16 * (64 / s.entropyWidth.bits) → d.width ≠ s.entropyWidth →
    s.inputs = answers s.entropyWidth draws ++ .entropy (.ok d) :: rest →
    let t := { s with pending := some (draws.map (Draw.mk s.entropyWidth)), inputs := .entropy (.ok d) :: rest }
    exec .selfseed s = .next t ∧ step t = .refused .unadmittedDraw

/-- R146, its sentence "Only SELFSEED makes requests": no other command takes an answer or starts waiting. -/
def Obligations.OnlySelfseedUsesTheEntropyPort : Prop :=
  ∀ (i : Instr) (s t : State), i ≠ .selfseed → exec i s = .next t → t.inputs = s.inputs ∧ t.pending = s.pending

/-! ### Errors, reset, the whole machine -/

/-- R138: one status per command, ERR_ILLEGAL before ERR_UNSEEDED before ERR_ENTROPY. -/
def Obligations.OneStatusInPriorityOrder : Prop :=
  ∀ (s t : State) (c : Command) (rest : List Input) (r : Response),
    s.pending = none → s.inputs = .command c :: rest → step s = .next t → t.responses = s.responses ++ [r] →
    ((∃ e, decode c = .error e) → r.status = 0x01#8) ∧
    (∀ i, decode c = .ok i → r.status ≠ 0x01#8) ∧
    (∀ i, decode c = .ok i → (r.status = 0x02#8 ↔ constructs i = false ∧ s.SEEDED = false)) ∧
    (r.status = 0x03#8 → decode c = .ok .selfseed)

/-- R133 (and R162): until a SEED or SELFSEED an UNSEEDED engine answers each NEXT, SETSEED and GETSTATE with
ERR_UNSEEDED and each illegal command with ERR_ILLEGAL, never with a data word, and all its state stays as it was. -/
def Obligations.UnseededEngineAnswersOnlyErrors : Prop :=
  ∀ (cmds : List Command) (s : State) (rest : List Input),
    s.pending = none → s.SEEDED = false → (∀ c ∈ cmds, decodesTo constructs c = false) →
    s.inputs = cmds.map .command ++ rest →
    s.run cmds.length = .next { s with
      inputs := rest
      responses := s.responses ++ cmds.map fun c =>
        ⟨if decodesTo (fun _ => true) c then 0x02#8 else 0x01#8, []⟩ }

/-- R64: the data words of a response, by command, and none with an error. -/
def Obligations.ResponseDataByCommand : Prop :=
  ∀ (i : Instr) (s t : State) (r : Response), exec i s = .next t → t.responses = s.responses ++ [r] →
    (r.status ≠ 0x00#8 → r.data = []) ∧
    (r.status = 0x00#8 → match i with
      | .next => ∃ c w, t.CUR = some c ∧ t.S[c] = some w ∧ r.data = [w * BitVec.ofNat 64 1181783497276652981]
      | .getstate => r.data.map some = t.S.toList
      | .seed _ => r.data = []
      | .setseed _ => r.data = []
      | .selfseed => r.data = [])

/-- R136, R139: a command that answers ERR_ILLEGAL or ERR_UNSEEDED has changed nothing; one that answers
ERR_ENTROPY has left the engine UNSEEDED with no value in S or CUR. -/
def Obligations.ErrorsArePrecise : Prop :=
  ∀ (s t : State) (c : Command) (rest : List Input) (r : Response),
    s.pending = none → s.inputs = .command c :: rest → step s = .next t → t.responses = s.responses ++ [r] →
    (r.status = 0x01#8 ∨ r.status = 0x02#8 →
      t = { s with inputs := rest, responses := s.responses ++ [⟨r.status, []⟩] }) ∧
    (r.status = 0x03#8 → t.SEEDED = false ∧ t.CUR = none ∧ (∀ j : Fin 16, t.S[j] = none) ∧ t.pending = none ∧
      t.entropyWidth = s.entropyWidth)

/-- R32, R160: what the spec says reset leaves. -/
def Obligations.ResetHoldsNoValue : Prop :=
  State.reset.SEEDED = false ∧ State.reset.CUR = none ∧ ∀ i : Fin 16, State.reset.S[i] = none

/-- R160, R161: a reset puts the engine in the UNSEEDED state whatever it was doing, and a command it cuts short
gets no response; the engine is then between commands. -/
def Obligations.ResetAbortsTheCommand : Prop :=
  ∀ (s : State) (c : Command) (rest : List Input),
    s.inputs = .reset :: rest ∨ (s.pending = none ∧ s.inputs = .resetDuring c :: rest) →
    step s = .next { s with
      S := Vector.replicate 16 none
      CUR := none
      SEEDED := false
      pending := none
      inputs := rest }

/-- The invariant holds at reset (R22, R32, R131). -/
def Obligations.InvariantHoldsAtReset : Prop := State.reset.Inv

/-- R22, R25, R131: SEEDED, S and CUR hold values together or not at all, a SELFSEED in progress still has a draw
to make, and every response is one R131 allows; every step keeps this. -/
def Obligations.EveryStepKeepsTheInvariant : Prop :=
  ∀ s t : State, s.Inv → step s = .next t → t.Inv

/-- R13: "Reading a ⊥ location is never done by a rule": no step from a state where R22 holds reads one. -/
def Obligations.NoStepReadsALocationWithoutValue : Prop :=
  ∀ s : State, s.ValuesAgree → step s ≠ .fault .readOfNoValue

/-- R25, its table of writes to CUR, of the commands and of the reset input. (A reset in the middle of a command is
ResetAbortsTheCommand, and a SELFSEED that ends after a wait is LateAnswersGiveTheSameSelfseed.) -/
def Obligations.CursorIsWrittenAsTabled : Prop :=
  (∀ s t : State, s.SEEDED = true → exec .next s = .next t → ∃ c, s.CUR = some c ∧ t.CUR = some (c + 1)) ∧
  (∀ (d : List Word) (s t : State), d.length = 16 → exec (.seed d) s = .next t → t.CUR = some 0) ∧
  (∀ s t : State, exec .selfseed s = .next t → t.responses = s.responses ++ [⟨0x00#8, []⟩] → t.CUR = some 0) ∧
  (∀ s t : State, exec .selfseed s = .next t → t.responses = s.responses ++ [⟨0x03#8, []⟩] → t.CUR = none) ∧
  (∀ (s t : State) (rest : List Input), s.inputs = .reset :: rest → step s = .next t → t.CUR = none) ∧
  (∀ (d : List Word) (s t : State), exec (.setseed d) s = .next t → t.CUR = s.CUR) ∧
  (∀ s t : State, exec .getstate s = .next t → t.CUR = s.CUR)

/-- R26: no step lets the host choose CUR: after any step, CUR is what it was, or one more modulo 16, or 0, or no
value. -/
def Obligations.HostCannotChooseTheCursor : Prop :=
  ∀ s t : State, step s = .next t →
    t.CUR = s.CUR ∨ t.CUR = s.CUR.map (· + 1) ∨ t.CUR = some 0 ∨ t.CUR = none

/-- R22: who changes SEEDED. -/
def Obligations.SeededFlagIsWrittenAsTabled : Prop :=
  (∀ (d : List Word) (s t : State), d.length = 16 → exec (.seed d) s = .next t → t.SEEDED = true) ∧
  (∀ s t : State, exec .selfseed s = .next t →
    (t.responses = s.responses ++ [⟨0x00#8, []⟩] → t.SEEDED = true) ∧
    (t.responses = s.responses ++ [⟨0x03#8, []⟩] → t.SEEDED = false)) ∧
  (∀ (s t : State) (rest : List Input), s.inputs = .reset :: rest → step s = .next t → t.SEEDED = false) ∧
  (∀ (i : Instr) (s t : State), constructs i = false → exec i s = .next t → t.SEEDED = s.SEEDED)

/-- R60, R170: a command at an idle engine's channel completes with exactly one response, or it is a SELFSEED that
waits on the entropy source, with none yet. -/
def Obligations.EveryCommandIsAnsweredUnlessItWaitsForEntropy : Prop :=
  ∀ (s : State) (c : Command) (rest : List Input),
    s.ValuesAgree → s.pending = none → s.inputs = .command c :: rest →
    ∃ t, step s = .next t ∧
      ((t.pending = none ∧ ∃ r, t.responses = s.responses ++ [r]) ∨
       (decode c = .ok .selfseed ∧ t.pending ≠ none ∧ t.responses = s.responses ∧
          startsWithAnswer s.entropyWidth t.inputs = false))

/-- R19: the engine takes no step of its own without a command. -/
def Obligations.IdleEngineTakesNoStepOfItsOwn : Prop :=
  ∀ s : State, s.inputs = [] → ∃ f, step s = .fault f ∧ (s.pending = none → f = .awaitingCommand)

/-- R52, R149, R168: a second unsynchronised host on one engine is refused by the model. -/
def Obligations.SecondHostIsRefused : Prop :=
  ∀ (s : State) (c : Command) (rest : List Input), s.inputs = .secondHost c :: rest →
    step s = .refused .unsynchronisedHosts

/-- R9: ENTROPY_WIDTH is fixed for the life of the engine, exactly 16, 32 and 64 are admitted, and any other value
is refused as a configuration. -/
def Obligations.EntropyWidthIsAdmittedAndFixed : Prop :=
  (∀ n : Nat, (∃ s, State.configured n = some s ∧ s.entropyWidth.bits = n) ↔ n = 16 ∨ n = 32 ∨ n = 64) ∧
  (∀ n : Nat, n ∉ [16, 32, 64] → State.configured n = none) ∧
  (∀ s t : State, step s = .next t → t.entropyWidth = s.entropyWidth)

/-- R148: engines are independent. In any interleaving of their turns the run goes through exactly when each
engine's own turns, taken alone, do, and each engine then ends as it does alone; a run that is refused is one in which
some engine's own turns are refused. (In a turn an engine takes its step, or waits: assumption 18, the model's own.) -/
def Obligations.EnginesAreIndependent : Prop :=
  ∀ (order : List Nat) (p : Platform),
    ((∃ q, stepEngines order p = .next q) ↔
      ∀ k s, p[k]? = some s → ∃ t, stepsAlone (order.count k) s = .next t) ∧
    (∀ q, stepEngines order p = .next q → q.length = p.length ∧
      ∀ k s, p[k]? = some s → ∃ t, stepsAlone (order.count k) s = .next t ∧ q[k]? = some t) ∧
    (∀ r, stepEngines order p = .refused r → ∃ k s, p[k]? = some s ∧ stepsAlone (order.count k) s = .refused r)

/-- R52, R149, R168, D15: a second unsynchronised host on one engine refuses the whole run of several engines, whatever
turns came before it and whatever would come after; no engine of that run is given an outcome. -/
def Obligations.SecondHostRefusesTheWholeRun : Prop :=
  ∀ (before after : List Nat) (p q : Platform) (k : Nat) (s : State) (c : Command) (rest : List Input),
    stepEngines before p = .next q → q[k]? = some s → s.inputs = .secondHost c :: rest →
    stepEngines (before ++ k :: after) p = .refused .unsynchronisedHosts

/-- R148: however the answers of a shared entropy source are interleaved, an engine receives its own, in order, and
nothing else of it changes. -/
def Obligations.SharedEntropyReachesEachEngineInOrder : Prop :=
  ∀ (l : List (Nat × EntropyAnswer)) (p : Platform) (k : Nat),
    (deliverAll l p)[k]? = p[k]?.map fun s =>
      { s with inputs := s.inputs ++ (l.filter fun x => x.1 == k).map fun x => .entropy x.2 }

/-! ### The textual form -/

/-- R68, R71: the assembly line a listing shows for a well-formed command assembles to that command. -/
def Obligations.ListingLineAssemblesToItsCommand : Prop :=
  ∀ i : Instr, i.wellFormed = true → assembleChars (assemblyText i) = .ok [i]

/-- R68, R69, R70, of the operand readers of SEED, SETSEED, RESUME and SKIP: another number of operands is refused
as such, and where SEED or SETSEED is accepted each payload word is its own operand's value, below 2^64. Whole lines
are the statement after this one. -/
def Obligations.OperandCountsAreCheckedAndNothingIsPadded : Prop :=
  (∀ (mk : List Word → Instr) (ops : List (List Char)), ops.length ≠ 16 →
    seedOperands mk ops = .error .operandCount) ∧
  (∀ ops : List (List Char), ops.length ≠ 17 → assembleResume ops = .error .operandCount) ∧
  (∀ ops : List (List Char), ops.length ≠ 1 → assembleSkip ops = .error .operandCount) ∧
  (∀ (mk : List Word → Instr) (ops : List (List Char)) (is : List Instr), seedOperands mk ops = .ok is →
    ∃ d : List Word, is = [mk d] ∧ d.length = 16 ∧
      ∀ j : Nat, j < 16 → ∃ o n, ops[j]? = some o ∧ literal o = .ok n ∧ n < 2 ^ 64 ∧
        d[j]? = some (BitVec.ofNat 64 n))

/-- R68, R69, R70, of whole lines. A line assembles exactly when its mnemonic is one of the seven and its operands
are that mnemonic's, and then to exactly their commands (a line without a mnemonic assembles to none: assumption 13,
the model's own). A wrong number of operands and any other mnemonic are refused by name. -/
def Obligations.LineAssemblesExactlyToItsCommands : Prop :=
  (∀ (line : List Char) (is : List Instr),
    let m := lineMnemonic line
    let ops := lineOperands line
    assembleChars line = .ok is ↔
      (m = [] ∧ is = []) ∨
      (m = "NEXT".toList ∧ ops = [] ∧ is = [.next]) ∨
      (m = "SEED".toList ∧ ∃ d, ReadsAs ops d ∧ is = [.seed d]) ∨
      (m = "SETSEED".toList ∧ ∃ d, ReadsAs ops d ∧ is = [.setseed d]) ∨
      (m = "SELFSEED".toList ∧ ops = [] ∧ is = [.selfseed]) ∨
      (m = "GETSTATE".toList ∧ ops = [] ∧ is = [.getstate]) ∨
      (m = "SKIP".toList ∧ ∃ o n, ops = [o] ∧ literal o = .ok n ∧ is = expandSkip n) ∨
      (m = "RESUME".toList ∧ ∃ (o : List Char) (os : List (List Char)) (k : Fin 16) (d : List Word),
        ops = o :: os ∧ literal o = .ok k.val ∧ ReadsAs os d ∧ is = expandResume k d)) ∧
  (∀ (line : List Char) (m : String) (n : Nat),
    (m, n) ∈ [("NEXT", 0), ("SEED", 16), ("SETSEED", 16), ("SELFSEED", 0), ("GETSTATE", 0), ("SKIP", 1), ("RESUME", 17)] →
    lineMnemonic line = m.toList → (lineOperands line).length ≠ n → assembleChars line = .error .operandCount) ∧
  (∀ line : List Char, lineMnemonic line ≠ [] →
    (∀ m ∈ ["NEXT", "SEED", "SETSEED", "SELFSEED", "GETSTATE", "SKIP", "RESUME"], lineMnemonic line ≠ m.toList) →
    assembleChars line = .error .unknownMnemonic)
end

