-- ==== Sys2Proof/Laws/Decode.lean ====
section
/-! SUPPORT. The fields of a command word, and what an OP field names. -/

namespace Sys2Proof

theorem Op.ofCode_code (op : Op) : Op.ofCode op.code = some op := by cases op <;> rfl

/-- An OP field names an operation only by that operation's code. -/
theorem Op.code_of_ofCode : ∀ (code : BitVec 4) (op : Op), Op.ofCode code = some op → op.code = code := by
  intro code op
  cases op <;> revert code <;> decide

@[simp] theorem opField_commandWord (op : Op) : opField op.commandWord = op.code := by cases op <;> rfl

@[simp] theorem rsvdField_commandWord (op : Op) : rsvdField op.commandWord = 0#28 := by cases op <;> rfl

@[simp] theorem announcedPaylen_commandWord (op : Op) : announcedPaylen op.commandWord = op.paylen := by
  cases op <;> rfl

/-- A command word is its two fields, RSVD above OP (R61). -/
theorem commandWord_of_fields (cmd : BitVec 32) : cmd = rsvdField cmd ++ opField cmd := by
  apply BitVec.eq_of_toNat_eq
  have h := cmd.isLt
  have e : cmd.toNat = cmd.toNat / 2 ^ 4 % 2 ^ 28 * 2 ^ 4 + cmd.toNat % 2 ^ 4 := by omega
  rw [rsvdField, opField, BitVec.toNat_append, BitVec.extractLsb'_toNat, BitVec.extractLsb'_toNat,
    ← Nat.shiftLeft_add_eq_or_of_lt (by omega), Nat.shiftLeft_eq, Nat.shiftRight_eq_div_pow, Nat.shiftRight_zero]
  exact e

/-- Everything the decoder can answer. -/
theorem decode_cases (c : Command) :
    (decode c = .error .reservedBits ∧ rsvdField c.cmd ≠ 0#28) ∨
    (decode c = .error .reservedOp ∧ rsvdField c.cmd = 0#28 ∧ Op.ofCode (opField c.cmd) = none) ∨
    (∃ op, decode c = .error .payloadLength ∧ rsvdField c.cmd = 0#28 ∧
      Op.ofCode (opField c.cmd) = some op ∧ c.payload.length ≠ op.paylen) ∨
    (∃ op, decode c = .ok (op.toInstr c.payload) ∧ rsvdField c.cmd = 0#28 ∧
      Op.ofCode (opField c.cmd) = some op ∧ c.payload.length = op.paylen) := by
  unfold decode
  by_cases hr : rsvdField c.cmd = 0#28
  · cases ho : Op.ofCode (opField c.cmd) with
    | none => simp [hr]
    | some op =>
      by_cases hl : c.payload.length = op.paylen
      · exact .inr (.inr (.inr ⟨op, by simp [hr, hl], hr, rfl, hl⟩))
      · exact .inr (.inr (.inl ⟨op, by simp [hr, hl], hr, rfl, hl⟩))
  · simp [hr]

theorem bitsOfPayload_cons (d : Word) (ds : List Word) :
    bitsOfPayload (d :: ds) = d.toNat + 2 ^ 64 * bitsOfPayload ds := rfl

theorem bitsOfPayload_lt (ds : List Word) : bitsOfPayload ds < 2 ^ (64 * ds.length) := by
  induction ds with
  | nil => simp [bitsOfPayload]
  | cons d ds ih =>
    have hd := d.isLt
    have : 2 ^ (64 * (ds.length + 1)) = 2 ^ 64 * 2 ^ (64 * ds.length) := by rw [← Nat.pow_add]; congr 1; omega
    rw [bitsOfPayload_cons, List.length_cons, this]
    calc d.toNat + 2 ^ 64 * bitsOfPayload ds < 2 ^ 64 * (bitsOfPayload ds + 1) := by omega
      _ ≤ _ := Nat.mul_le_mul_left _ ih

end Sys2Proof
end

