-- ==== Sys2Proof/Laws/State.lean ====
section
/-! SUPPORT. What each field holds after each named update, so that no proof unfolds a record update. -/

namespace Sys2Proof.Machine

variable (s : State)

@[simp] theorem State.writeWord_S (i : Fin 16) (w : Word) : (s.writeWord i w).S = s.S.set i (some w) := rfl
@[simp] theorem State.writeWord_CUR (i : Fin 16) (w : Word) : (s.writeWord i w).CUR = s.CUR := rfl
@[simp] theorem State.writeWord_SEEDED (i : Fin 16) (w : Word) : (s.writeWord i w).SEEDED = s.SEEDED := rfl
@[simp] theorem State.writeWord_pending (i : Fin 16) (w : Word) : (s.writeWord i w).pending = s.pending := rfl
@[simp] theorem State.writeWord_entropyWidth (i : Fin 16) (w : Word) :
    (s.writeWord i w).entropyWidth = s.entropyWidth := rfl
@[simp] theorem State.writeWord_inputs (i : Fin 16) (w : Word) : (s.writeWord i w).inputs = s.inputs := rfl
@[simp] theorem State.writeWord_responses (i : Fin 16) (w : Word) : (s.writeWord i w).responses = s.responses := rfl

@[simp] theorem State.loadArray_S (d : List Word) : (s.loadArray d).S = Vector.ofFn fun i : Fin 16 => d[i.val]? := rfl
@[simp] theorem State.loadArray_CUR (d : List Word) : (s.loadArray d).CUR = s.CUR := rfl
@[simp] theorem State.loadArray_SEEDED (d : List Word) : (s.loadArray d).SEEDED = s.SEEDED := rfl
@[simp] theorem State.loadArray_pending (d : List Word) : (s.loadArray d).pending = s.pending := rfl
@[simp] theorem State.loadArray_entropyWidth (d : List Word) : (s.loadArray d).entropyWidth = s.entropyWidth := rfl
@[simp] theorem State.loadArray_inputs (d : List Word) : (s.loadArray d).inputs = s.inputs := rfl
@[simp] theorem State.loadArray_responses (d : List Word) : (s.loadArray d).responses = s.responses := rfl

@[simp] theorem State.writeCur_S (c : Fin 16) : (s.writeCur c).S = s.S := rfl
@[simp] theorem State.writeCur_CUR (c : Fin 16) : (s.writeCur c).CUR = some c := rfl
@[simp] theorem State.writeCur_SEEDED (c : Fin 16) : (s.writeCur c).SEEDED = s.SEEDED := rfl
@[simp] theorem State.writeCur_pending (c : Fin 16) : (s.writeCur c).pending = s.pending := rfl
@[simp] theorem State.writeCur_entropyWidth (c : Fin 16) : (s.writeCur c).entropyWidth = s.entropyWidth := rfl
@[simp] theorem State.writeCur_inputs (c : Fin 16) : (s.writeCur c).inputs = s.inputs := rfl
@[simp] theorem State.writeCur_responses (c : Fin 16) : (s.writeCur c).responses = s.responses := rfl

@[simp] theorem State.withPending_S (p : Option (List Draw)) : (s.withPending p).S = s.S := rfl
@[simp] theorem State.withPending_CUR (p : Option (List Draw)) : (s.withPending p).CUR = s.CUR := rfl
@[simp] theorem State.withPending_SEEDED (p : Option (List Draw)) : (s.withPending p).SEEDED = s.SEEDED := rfl
@[simp] theorem State.withPending_pending (p : Option (List Draw)) : (s.withPending p).pending = p := rfl
@[simp] theorem State.withPending_entropyWidth (p : Option (List Draw)) :
    (s.withPending p).entropyWidth = s.entropyWidth := rfl
@[simp] theorem State.withPending_inputs (p : Option (List Draw)) : (s.withPending p).inputs = s.inputs := rfl
@[simp] theorem State.withPending_responses (p : Option (List Draw)) :
    (s.withPending p).responses = s.responses := rfl

@[simp] theorem State.withInputs_S (l : List Input) : (s.withInputs l).S = s.S := rfl
@[simp] theorem State.withInputs_CUR (l : List Input) : (s.withInputs l).CUR = s.CUR := rfl
@[simp] theorem State.withInputs_SEEDED (l : List Input) : (s.withInputs l).SEEDED = s.SEEDED := rfl
@[simp] theorem State.withInputs_pending (l : List Input) : (s.withInputs l).pending = s.pending := rfl
@[simp] theorem State.withInputs_entropyWidth (l : List Input) : (s.withInputs l).entropyWidth = s.entropyWidth := rfl
@[simp] theorem State.withInputs_inputs (l : List Input) : (s.withInputs l).inputs = l := rfl
@[simp] theorem State.withInputs_responses (l : List Input) : (s.withInputs l).responses = s.responses := rfl

@[simp] theorem State.respond_S (st : Status) (data : List Word) : (s.respond st data).S = s.S := rfl
@[simp] theorem State.respond_CUR (st : Status) (data : List Word) : (s.respond st data).CUR = s.CUR := rfl
@[simp] theorem State.respond_SEEDED (st : Status) (data : List Word) : (s.respond st data).SEEDED = s.SEEDED := rfl
@[simp] theorem State.respond_pending (st : Status) (data : List Word) :
    (s.respond st data).pending = s.pending := rfl
@[simp] theorem State.respond_entropyWidth (st : Status) (data : List Word) :
    (s.respond st data).entropyWidth = s.entropyWidth := rfl
@[simp] theorem State.respond_inputs (st : Status) (data : List Word) : (s.respond st data).inputs = s.inputs := rfl
@[simp] theorem State.respond_responses (st : Status) (data : List Word) :
    (s.respond st data).responses = s.responses ++ [⟨st.code, data⟩] := rfl

@[simp] theorem State.unseed_S : (s.unseed).S = Vector.replicate 16 none := rfl
@[simp] theorem State.unseed_CUR : (s.unseed).CUR = none := rfl
@[simp] theorem State.unseed_SEEDED : (s.unseed).SEEDED = false := rfl
@[simp] theorem State.unseed_pending : (s.unseed).pending = s.pending := rfl
@[simp] theorem State.unseed_entropyWidth : (s.unseed).entropyWidth = s.entropyWidth := rfl
@[simp] theorem State.unseed_inputs : (s.unseed).inputs = s.inputs := rfl
@[simp] theorem State.unseed_responses : (s.unseed).responses = s.responses := rfl

@[simp] theorem State.markSeeded_S : (s.markSeeded).S = s.S := rfl
@[simp] theorem State.markSeeded_CUR : (s.markSeeded).CUR = s.CUR := rfl
@[simp] theorem State.markSeeded_SEEDED : (s.markSeeded).SEEDED = true := rfl
@[simp] theorem State.markSeeded_pending : (s.markSeeded).pending = s.pending := rfl
@[simp] theorem State.markSeeded_entropyWidth : (s.markSeeded).entropyWidth = s.entropyWidth := rfl
@[simp] theorem State.markSeeded_inputs : (s.markSeeded).inputs = s.inputs := rfl
@[simp] theorem State.markSeeded_responses : (s.markSeeded).responses = s.responses := rfl

@[simp] theorem State.applyReset_S : (s.applyReset).S = Vector.replicate 16 none := rfl
@[simp] theorem State.applyReset_CUR : (s.applyReset).CUR = none := rfl
@[simp] theorem State.applyReset_SEEDED : (s.applyReset).SEEDED = false := rfl
@[simp] theorem State.applyReset_pending : (s.applyReset).pending = none := rfl
@[simp] theorem State.applyReset_entropyWidth : (s.applyReset).entropyWidth = s.entropyWidth := rfl
@[simp] theorem State.applyReset_inputs : (s.applyReset).inputs = s.inputs := rfl
@[simp] theorem State.applyReset_responses : (s.applyReset).responses = s.responses := rfl

@[simp] theorem State.raise_illegal : s.raise .illegal = s.respond .errIllegal [] := rfl
@[simp] theorem State.raise_unseeded : s.raise .unseeded = s.respond .errUnseeded [] := rfl
@[simp] theorem State.raise_entropy : s.raise .entropy = s.unseed.respond .errEntropy [] := rfl

@[simp] theorem Status.code_ok : Status.ok.code = 0x00#8 := rfl
@[simp] theorem Status.code_errIllegal : Status.errIllegal.code = 0x01#8 := rfl
@[simp] theorem Status.code_errUnseeded : Status.errUnseeded.code = 0x02#8 := rfl
@[simp] theorem Status.code_errEntropy : Status.errEntropy.code = 0x03#8 := rfl

/-- Two states with equal fields are equal. -/
theorem State.ext_fields {a b : State} (hS : a.S = b.S) (hC : a.CUR = b.CUR) (hF : a.SEEDED = b.SEEDED)
    (hp : a.pending = b.pending) (hw : a.entropyWidth = b.entropyWidth) (hi : a.inputs = b.inputs)
    (hr : a.responses = b.responses) : a = b := by
  cases a; cases b; simp_all

end Sys2Proof.Machine
end

