-- ==== Sys2Proof/Laws/Ops.lean ====
section
/-! SUPPORT. One spec lemma per shared operation: what it answers, and everything it can do. -/

namespace Sys2Proof.Machine

/-! ### Reads -/

theorem State.readWord_of_some {s : State} {i : Fin 16} {w : Word} (h : s.S[i] = some w) (k : Word → Result) :
    s.readWord i k = k w := by simp only [State.readWord, h]

theorem State.readWord_next {s t : State} {i : Fin 16} {k : Word → Result} (h : s.readWord i k = .next t) :
    ∃ w, s.S[i] = some w ∧ k w = .next t := by
  unfold State.readWord at h
  split at h
  · exact ⟨_, ‹_›, h⟩
  · cases h

theorem State.readCur_of_some {s : State} {c : Fin 16} (h : s.CUR = some c) (k : Fin 16 → Result) :
    s.readCur k = k c := by simp only [State.readCur, h]

theorem State.readCur_next {s t : State} {k : Fin 16 → Result} (h : s.readCur k = .next t) :
    ∃ c, s.CUR = some c ∧ k c = .next t := by
  unfold State.readCur at h
  split at h
  · exact ⟨_, ‹_›, h⟩
  · cases h

@[simp] theorem allValues_map_some (ws : List Word) : allValues (ws.map some) = some ws := by
  induction ws with
  | nil => rfl
  | cons w ws ih => simp [allValues, ih]

theorem map_some_of_allValues {l : List (Option Word)} {ws : List Word} (h : allValues l = some ws) :
    l = ws.map some := by
  induction l generalizing ws with
  | nil => simp [allValues] at h; simp [← h]
  | cons o l ih =>
    cases o with
    | none => simp [allValues] at h
    | some w =>
      simp only [allValues, Option.map_eq_some_iff] at h
      obtain ⟨ws', h', rfl⟩ := h
      simp [ih h']

theorem State.readArray_of_values {s : State} {ws : List Word} (h : s.S.toList = ws.map some)
    (k : List Word → Result) : s.readArray k = k ws := by simp [State.readArray, h]

theorem State.readArray_next {s t : State} {k : List Word → Result} (h : s.readArray k = .next t) :
    ∃ ws, s.S.toList = ws.map some ∧ k ws = .next t := by
  unfold State.readArray at h
  split at h
  · exact ⟨_, map_some_of_allValues ‹_›, h⟩
  · cases h

/-! ### The checks before an effect -/

theorem whenSeeded_of_seeded {s : State} (h : s.SEEDED = true) (k : State → Result) : whenSeeded s k = k s := by
  simp [whenSeeded, h]

theorem whenSeeded_of_unseeded {s : State} (h : s.SEEDED = false) (k : State → Result) :
    whenSeeded s k = .next (s.raise .unseeded) := by simp [whenSeeded, h]

theorem whenSeeded_next {s t : State} {k : State → Result} (h : whenSeeded s k = .next t) :
    (s.SEEDED = true ∧ k s = .next t) ∨ (s.SEEDED = false ∧ t = s.raise .unseeded) := by
  cases hs : s.SEEDED with
  | true => exact .inl ⟨rfl, by rwa [whenSeeded_of_seeded hs] at h⟩
  | false => exact .inr ⟨rfl, by rw [whenSeeded_of_unseeded hs] at h; injection h with h; exact h.symm⟩

theorem withPayload_of_sixteen {d : List Word} (h : d.length = 16) (s : State) (k : State → Result) :
    withPayload d s k = k s := by simp [withPayload, h]

theorem withPayload_of_wrong {d : List Word} (h : d.length ≠ 16) (s : State) (k : State → Result) :
    withPayload d s k = .next (s.raise .illegal) := by simp [withPayload, h]

theorem withPayload_next {d : List Word} {s t : State} {k : State → Result} (h : withPayload d s k = .next t) :
    (d.length = 16 ∧ k s = .next t) ∨ (d.length ≠ 16 ∧ t = s.raise .illegal) := by
  by_cases hd : d.length = 16
  · exact .inl ⟨hd, by rwa [withPayload_of_sixteen hd] at h⟩
  · exact .inr ⟨hd, by rw [withPayload_of_wrong hd] at h; injection h with h; exact h.symm⟩

/-! ### The array -/

@[simp] theorem State.loadArray_getElem (s : State) (d : List Word) (i : Fin 16) :
    (s.loadArray d).S[i] = d[i.val]? := by simp

theorem State.writeWord_getElem (s : State) (i j : Fin 16) (w : Word) :
    (s.writeWord i w).S[j] = if i = j then some w else s.S[j] := by
  simp [Vector.getElem_set, Fin.ext_iff]

@[simp] theorem State.unseed_getElem (s : State) (i : Fin 16) : s.unseed.S[i] = none := by simp

theorem cursor_succ_ne (c : Fin 16) : c + 1 ≠ c := by decide +revert

end Sys2Proof.Machine
end

