-- ==== Sys2Proof/Laws/Entropy.lean ====
section
/-! SUPPORT. What asking the entropy port for draws can come to, and what SELFSEED makes of it. -/

namespace Sys2Proof.Machine

@[simp] theorem answers_nil (w : EntropyWidth) : answers w [] = [] := rfl
@[simp] theorem answers_cons (w : EntropyWidth) (e : BitVec w.bits) (es : List (BitVec w.bits)) :
    answers w (e :: es) = .entropy (.ok ⟨w, e⟩) :: answers w es := rfl
@[simp] theorem answers_append (w : EntropyWidth) (a b : List (BitVec w.bits)) :
    answers w (a ++ b) = answers w a ++ answers w b := by simp [answers]

@[simp] theorem startsWithAnswer_cons (w : EntropyWidth) (a : EntropyAnswer) (l : List Input) :
    startsWithAnswer w (.entropy a :: l) = a.admitted w := rfl
@[simp] theorem admitted_fail (w : EntropyWidth) : EntropyAnswer.fail.admitted w = true := rfl
@[simp] theorem admitted_ok (w : EntropyWidth) (d : Draw) :
    (EntropyAnswer.ok d).admitted w = true ↔ d.width = w := beq_iff_eq

/-- Draws per word is 64 / ENTROPY_WIDTH. -/
theorem drawsPerWord_eq (w : EntropyWidth) : drawsPerWord w = 64 / w.bits := by cases w <;> rfl

theorem totalDraws_eq (w : EntropyWidth) : totalDraws w = 16 * (64 / w.bits) := by cases w <;> rfl

theorem totalDraws_pos (w : EntropyWidth) : 0 < totalDraws w := by cases w <;> decide

/-- Answers that do not fill the count are taken, whatever comes after them. -/
theorem takeDraws_answers {w : EntropyWidth} (draws : List (BitVec w.bits)) (got : List Draw) (l : List Input)
    (h : got.length + draws.length < totalDraws w) :
    takeDraws w got (answers w draws ++ l) = takeDraws w (got ++ draws.map (Draw.mk w)) l := by
  induction draws generalizing got with
  | nil => simp
  | cons e es ih =>
    simp only [List.length_cons] at h
    rw [answers_cons, List.cons_append, takeDraws, if_neg (fun h => h rfl), if_neg (by omega), ih _ (by simp; omega)]
    simp

/-- Answers that fill the count exactly complete the run. -/
theorem takeDraws_complete {w : EntropyWidth} (draws : List (BitVec w.bits)) (got : List Draw) (l : List Input)
    (h : got.length + draws.length = totalDraws w) (h0 : draws ≠ []) :
    takeDraws w got (answers w draws ++ l) = .complete (got ++ draws.map (Draw.mk w)) l := by
  induction draws generalizing got with
  | nil => exact absurd rfl h0
  | cons e es ih =>
    simp only [List.length_cons] at h
    rw [answers_cons, List.cons_append, takeDraws, if_neg (fun h => h rfl)]
    cases es with
    | nil => simp at h; simp [← h]
    | cons e' es =>
      simp only [List.length_cons] at h
      rw [if_neg (by omega), ih _ (by simp; omega) (by simp)]
      simp

theorem takeDraws_no_answer {w : EntropyWidth} {got : List Draw} {l : List Input}
    (h : startsWithAnswer w l = false) : takeDraws w got l = .waiting got l := by
  cases l with
  | nil => rfl
  | cons x l =>
    cases x with
    | entropy a =>
      cases a with
      | fail => simp at h
      | ok d => rw [takeDraws, if_pos (by rwa [startsWithAnswer_cons, Bool.eq_false_iff, Ne, admitted_ok] at h)]
    | command c => rfl
    | reset => rfl
    | resetDuring c => rfl
    | secondHost c => rfl

/-- Everything a run of draws can be, with what it took from the inputs. -/
theorem takeDraws_cases (w : EntropyWidth) (got : List Draw) (l : List Input) (h : got.length < totalDraws w) :
    (∃ (draws : List (BitVec w.bits)) (rest : List Input),
      takeDraws w got l = .complete (got ++ draws.map (Draw.mk w)) rest ∧
      l = answers w draws ++ rest ∧ got.length + draws.length = totalDraws w) ∨
    (∃ (draws : List (BitVec w.bits)) (rest : List Input), takeDraws w got l = .failed rest ∧
      l = answers w draws ++ .entropy .fail :: rest ∧ got.length + draws.length < totalDraws w) ∨
    (∃ (draws : List (BitVec w.bits)) (rest : List Input),
      takeDraws w got l = .waiting (got ++ draws.map (Draw.mk w)) rest ∧
      l = answers w draws ++ rest ∧ got.length + draws.length < totalDraws w ∧ startsWithAnswer w rest = false) := by
  induction l generalizing got with
  | nil => exact .inr (.inr ⟨[], [], by simp [takeDraws, startsWithAnswer, h]⟩)
  | cons x l ih =>
    cases x with
    | entropy a =>
      cases a with
      | fail => exact .inr (.inl ⟨[], l, by simp [takeDraws, h]⟩)
      | ok d =>
        by_cases hw : d.width = w
        · obtain ⟨w', e⟩ := d
          have hw : w' = w := hw
          subst hw
          rw [takeDraws, if_neg (fun h => h rfl)]
          split
          · exact .inl ⟨[e], l, by simp, by simp, by simp; omega⟩
          · rcases ih (got ++ [⟨_, e⟩]) (by simp; omega) with
              ⟨d, r, h1, h2, h3⟩ | ⟨d, r, h1, h2, h3⟩ | ⟨d, r, h1, h2, h3, h4⟩
            · exact .inl ⟨e :: d, r, by simpa using h1, by simp [h2], by simp at h3 ⊢; omega⟩
            · exact .inr (.inl ⟨e :: d, r, h1, by simp [h2], by simp at h3 ⊢; omega⟩)
            · exact .inr (.inr ⟨e :: d, r, by simpa using h1, by simp [h2], by simp at h3 ⊢; omega, h4⟩)
        · have hn : startsWithAnswer w (.entropy (.ok d) :: l) = false := by
            rwa [startsWithAnswer_cons, Bool.eq_false_iff, Ne, admitted_ok]
          exact .inr (.inr ⟨[], _, by simpa using takeDraws_no_answer hn, by simp, by simpa using h, hn⟩)
    | command c => exact .inr (.inr ⟨[], .command c :: l, by simp [takeDraws, startsWithAnswer, h]⟩)
    | reset => exact .inr (.inr ⟨[], .reset :: l, by simp [takeDraws, startsWithAnswer, h]⟩)
    | resetDuring c => exact .inr (.inr ⟨[], .resetDuring c :: l, by simp [takeDraws, startsWithAnswer, h]⟩)
    | secondHost c => exact .inr (.inr ⟨[], .secondHost c :: l, by simp [takeDraws, startsWithAnswer, h]⟩)

/-- A mask of all the bits of a zero-extended value changes nothing (95, "Masking"). -/
theorem setWidth_and_mask {n : Nat} (hn : n ≤ 64) (x : BitVec n) {m : Word} (hm : m.toNat = 2 ^ n - 1) :
    x.setWidth 64 &&& m = x.setWidth 64 := by
  have hx := x.isLt
  have hp : 2 ^ n ≤ 2 ^ 64 := Nat.pow_le_pow_right (by decide) hn
  apply BitVec.eq_of_toNat_eq
  rw [BitVec.toNat_and, hm, Nat.and_two_pow_sub_one_eq_mod, BitVec.toNat_setWidth,
    Nat.mod_eq_of_lt (show x.toNat < 2 ^ 64 by omega), Nat.mod_eq_of_lt hx]

/-- The assembled array always has sixteen words. -/
@[simp] theorem assembleArray_length (w : EntropyWidth) (draws : List Draw) :
    (assembleArray w draws).length = 16 := by simp [assembleArray]

/-- The state a completed SELFSEED leaves. -/
def State.selfseeded (draws : List Draw) (rest : List Input) (s : State) : State :=
  ((((s.withInputs rest).withPending none).loadArray (assembleArray s.entropyWidth draws)).writeCur 0).markSeeded.respond
    .ok []

theorem State.drawEntropy_of_complete {s : State} {got draws : List Draw} {rest : List Input}
    (h : takeDraws s.entropyWidth got s.inputs = .complete draws rest) :
    s.drawEntropy got = s.selfseeded draws rest := by simp only [State.drawEntropy, h, State.selfseeded]

theorem State.drawEntropy_of_failed {s : State} {got : List Draw} {rest : List Input}
    (h : takeDraws s.entropyWidth got s.inputs = .failed rest) :
    s.drawEntropy got = ((s.withInputs rest).withPending none).raise .entropy := by
  simp only [State.drawEntropy, h]

theorem State.drawEntropy_of_waiting {s : State} {got draws : List Draw} {rest : List Input}
    (h : takeDraws s.entropyWidth got s.inputs = .waiting draws rest) :
    s.drawEntropy got = (s.withInputs rest).withPending (some draws) := by
  simp only [State.drawEntropy, h]

/-- Everything SELFSEED can do from draws already answered. -/
theorem State.drawEntropy_cases (s : State) (got : List Draw) (h : got.length < totalDraws s.entropyWidth) :
    (∃ (draws : List (BitVec s.entropyWidth.bits)) (rest : List Input),
      s.drawEntropy got = s.selfseeded (got ++ draws.map (Draw.mk s.entropyWidth)) rest ∧
      s.inputs = answers s.entropyWidth draws ++ rest ∧ got.length + draws.length = totalDraws s.entropyWidth) ∨
    (∃ (draws : List (BitVec s.entropyWidth.bits)) (rest : List Input),
      s.drawEntropy got = ((s.withInputs rest).withPending none).raise .entropy ∧
      s.inputs = answers s.entropyWidth draws ++ .entropy .fail :: rest ∧
      got.length + draws.length < totalDraws s.entropyWidth) ∨
    (∃ (draws : List (BitVec s.entropyWidth.bits)) (rest : List Input),
      s.drawEntropy got =
        (s.withInputs rest).withPending (some (got ++ draws.map (Draw.mk s.entropyWidth))) ∧
      s.inputs = answers s.entropyWidth draws ++ rest ∧ got.length + draws.length < totalDraws s.entropyWidth ∧
      startsWithAnswer s.entropyWidth rest = false) := by
  rcases takeDraws_cases s.entropyWidth got s.inputs h with
    ⟨d, r, h1, h2, h3⟩ | ⟨d, r, h1, h2, h3⟩ | ⟨d, r, h1, h2, h3, h4⟩
  · exact .inl ⟨d, r, s.drawEntropy_of_complete h1, h2, h3⟩
  · exact .inr (.inl ⟨d, r, s.drawEntropy_of_failed h1, h2, h3⟩)
  · exact .inr (.inr ⟨d, r, s.drawEntropy_of_waiting h1, h2, h3, h4⟩)

end Sys2Proof.Machine
end

