-- ==== Sys2Proof/Laws/PerInstr.lean ====
section
/-! SUPPORT. A statement about every instruction as data, one lemma per constructor. -/

namespace Sys2Proof.Laws.EncodedPayloadCount

/-- The encoding of a well-formed instruction announces exactly the payload words it carries (R65). -/
def Statement (i : Instr) : Prop := i.wellFormed = true → announcedPaylen (encode i).cmd = (encode i).payload.length

theorem next : Statement .next := fun _ => rfl
theorem seed (d : List Word) : Statement (.seed d) := fun h => by
  have hd : d.length = 16 := by simpa [Instr.wellFormed] using h
  exact (announcedPaylen_commandWord .seed).trans hd.symm
theorem setseed (d : List Word) : Statement (.setseed d) := fun h => by
  have hd : d.length = 16 := by simpa [Instr.wellFormed] using h
  exact (announcedPaylen_commandWord .setseed).trans hd.symm
theorem selfseed : Statement .selfseed := fun _ => rfl
theorem getstate : Statement .getstate := fun _ => rfl

end Sys2Proof.Laws.EncodedPayloadCount
end

