-- ==== Sys2Proof/Laws/Platform.lean ====
section
/-! SUPPORT. What a turn, a step of several engines and a run of them can come to. -/

namespace Sys2Proof.Machine

theorem turn_of_next {s t : State} (h : step s = .next t) : turn s = .next t := by simp only [turn, h]

theorem turn_of_refused {s : State} {r : Refusal} (h : step s = .refused r) : turn s = .refused r := by
  simp only [turn, h]

/-- Everything a turn that goes through can have been: the engine's step, or waiting. -/
theorem turn_next {s t : State} (h : turn s = .next t) :
    step s = .next t ∨ (t = s ∧ (step s = .fault .awaitingCommand ∨ step s = .fault .awaitingEntropy)) := by
  unfold turn at h
  split at h
  · exact .inl (by rw [← h]; assumption)
  · exact .inr ⟨by cases h; rfl, .inl (by assumption)⟩
  · exact .inr ⟨by cases h; rfl, .inr (by assumption)⟩
  · cases h
  · cases h

theorem stepEngine_of_absent {k : Nat} {p : Platform} (h : p[k]? = none) : stepEngine k p = .next p := by
  simp only [stepEngine, h]

theorem stepEngine_of_next {k : Nat} {p : Platform} {s t : State} (h : p[k]? = some s) (ht : turn s = .next t) :
    stepEngine k p = .next (p.set k t) := by simp only [stepEngine, h, ht]

theorem stepEngine_of_fault {k : Nat} {p : Platform} {s : State} {f : Fault} (h : p[k]? = some s)
    (ht : turn s = .fault f) : stepEngine k p = .fault f := by simp only [stepEngine, h, ht]

theorem stepEngine_of_refused {k : Nat} {p : Platform} {s : State} {r : Refusal} (h : p[k]? = some s)
    (ht : turn s = .refused r) : stepEngine k p = .refused r := by simp only [stepEngine, h, ht]

theorem stepsAlone_of_next {s t : State} (h : turn s = .next t) (n : Nat) :
    stepsAlone (n + 1) s = stepsAlone n t := by simp only [stepsAlone, h]

/-- A run of several engines goes on from where an earlier part of it ended. -/
theorem stepEngines_append_of_next {a : List Nat} {p q : Platform} (h : stepEngines a p = .next q) (b : List Nat) :
    stepEngines (a ++ b) p = stepEngines b q := by
  induction a generalizing p with
  | nil => cases h; rfl
  | cons k a ih =>
    rw [stepEngines] at h
    rw [List.cons_append, stepEngines]
    cases hs : stepEngine k p with
    | next u => rw [hs] at h; exact ih h
    | fault f => rw [hs] at h; cases h
    | refused r => rw [hs] at h; cases h

end Sys2Proof.Machine
end

