-- ==== Sys2Proof/Laws/Seeding.lean ====
section
/-! SUPPORT. Everything SEED, SETSEED and GETSTATE can do. -/

namespace Sys2Proof.Machine

theorem execSeed_of_sixteen {d : List Word} (h : d.length = 16) (s : State) :
    execSeed d s = .next ((((s.loadArray d).writeCur 0).markSeeded).respond .ok []) := by
  rw [execSeed, withPayload_of_sixteen h]

theorem execSeed_of_wrong {d : List Word} (h : d.length ≠ 16) (s : State) :
    execSeed d s = .next (s.raise .illegal) := withPayload_of_wrong h s _

theorem execSetseed_of_wrong {d : List Word} (h : d.length ≠ 16) (s : State) :
    execSetseed d s = .next (s.raise .illegal) := withPayload_of_wrong h s _

theorem execSeed_cases {d : List Word} {s t : State} (h : execSeed d s = .next t) :
    (d.length = 16 ∧ t = (((s.loadArray d).writeCur 0).markSeeded).respond .ok []) ∨
    (d.length ≠ 16 ∧ t = s.raise .illegal) := by
  rcases withPayload_next h with ⟨hd, h⟩ | ⟨hd, rfl⟩
  · injection h with h
    exact .inl ⟨hd, h.symm⟩
  · exact .inr ⟨hd, rfl⟩

theorem execSetseed_of_seeded {d : List Word} {s : State} (h : d.length = 16) (hs : s.SEEDED = true) :
    execSetseed d s = .next ((s.loadArray d).respond .ok []) := by
  rw [execSetseed, withPayload_of_sixteen h, whenSeeded_of_seeded hs]

theorem execSetseed_of_unseeded {d : List Word} {s : State} (h : d.length = 16) (hs : s.SEEDED = false) :
    execSetseed d s = .next (s.raise .unseeded) := by
  rw [execSetseed, withPayload_of_sixteen h, whenSeeded_of_unseeded hs]

theorem execSetseed_cases {d : List Word} {s t : State} (h : execSetseed d s = .next t) :
    (d.length = 16 ∧ s.SEEDED = true ∧ t = (s.loadArray d).respond .ok []) ∨
    (d.length = 16 ∧ s.SEEDED = false ∧ t = s.raise .unseeded) ∨
    (d.length ≠ 16 ∧ t = s.raise .illegal) := by
  rcases withPayload_next h with ⟨hd, h⟩ | ⟨hd, rfl⟩
  · rcases whenSeeded_next h with ⟨hs, h⟩ | ⟨hs, rfl⟩
    · injection h with h
      exact .inl ⟨hd, hs, h.symm⟩
    · exact .inr (.inl ⟨hd, hs, rfl⟩)
  · exact .inr (.inr ⟨hd, rfl⟩)

theorem execGetstate_of_values {s : State} {ws : List Word} (hs : s.SEEDED = true)
    (h : s.S.toList = ws.map some) : execGetstate s = .next (s.respond .ok ws) := by
  rw [execGetstate, whenSeeded_of_seeded hs, State.readArray_of_values h]

theorem execGetstate_of_unseeded {s : State} (h : s.SEEDED = false) : execGetstate s = .next (s.raise .unseeded) :=
  whenSeeded_of_unseeded h _

theorem execGetstate_cases {s t : State} (h : execGetstate s = .next t) :
    (s.SEEDED = true ∧ ∃ ws, s.S.toList = ws.map some ∧ t = s.respond .ok ws) ∨
    (s.SEEDED = false ∧ t = s.raise .unseeded) := by
  rcases whenSeeded_next h with ⟨hs, h⟩ | ⟨hs, rfl⟩
  · obtain ⟨ws, hw, h⟩ := State.readArray_next h
    injection h with h
    exact .inl ⟨hs, ws, hw, h.symm⟩
  · exact .inr ⟨hs, rfl⟩

/-- R22 speaks of S, CUR and SEEDED only. -/
theorem State.ValuesAgree.of_eq {s t : State} (h : s.ValuesAgree) (hS : t.S = s.S) (hC : t.CUR = s.CUR)
    (hF : t.SEEDED = s.SEEDED) : t.ValuesAgree := by
  obtain ⟨h1, h2, h3, h4⟩ := h
  exact ⟨by rw [hF, hC]; exact h1, by rw [hF, hS]; exact h2, by rw [hF, hC]; exact h3, by rw [hF, hS]; exact h4⟩

/-- A seeded state with R22's values has a word in every location. -/
theorem State.ValuesAgree.words {s : State} (h : s.ValuesAgree) (hs : s.SEEDED = true) :
    ∃ ws : List Word, s.S.toList = ws.map some := by
  have hw := h.words_of_seeded hs
  refine ⟨s.S.toList.map fun o => o.getD 0#64, ?_⟩
  rw [List.map_map]
  refine (List.map_id _).symm.trans (List.map_congr_left fun o ho => ?_)
  obtain ⟨i, hi, rfl⟩ := List.mem_iff_getElem.mp ho
  have := hw ⟨i, by simpa using hi⟩
  obtain ⟨w, hw'⟩ := Option.isSome_iff_exists.mp this
  simp at hw'
  simp [hw']

end Sys2Proof.Machine
end

