-- ==== Sys2Proof/Laws/Transition.lean ====
section
/-! SUPPORT. Everything NEXT can do, and the algebra of its mix. -/

namespace Sys2Proof.Machine

/-- The state NEXT leaves when it stores `v` in the slot of the new cursor `c`. -/
def State.drawn (c : Fin 16) (v : Word) (s : State) : State :=
  ((s.writeCur c).writeWord c v).respond .ok [output v]

@[simp] theorem State.drawn_S (s : State) (c : Fin 16) (v : Word) : (s.drawn c v).S = s.S.set c (some v) := rfl
@[simp] theorem State.drawn_CUR (s : State) (c : Fin 16) (v : Word) : (s.drawn c v).CUR = some c := rfl
@[simp] theorem State.drawn_SEEDED (s : State) (c : Fin 16) (v : Word) : (s.drawn c v).SEEDED = s.SEEDED := rfl
@[simp] theorem State.drawn_pending (s : State) (c : Fin 16) (v : Word) : (s.drawn c v).pending = s.pending := rfl
@[simp] theorem State.drawn_entropyWidth (s : State) (c : Fin 16) (v : Word) :
    (s.drawn c v).entropyWidth = s.entropyWidth := rfl
@[simp] theorem State.drawn_inputs (s : State) (c : Fin 16) (v : Word) : (s.drawn c v).inputs = s.inputs := rfl
@[simp] theorem State.drawn_responses (s : State) (c : Fin 16) (v : Word) :
    (s.drawn c v).responses = s.responses ++ [⟨0x00#8, [output v]⟩] := rfl

theorem State.drawn_getElem (s : State) (c j : Fin 16) (v : Word) :
    (s.drawn c v).S[j] = if c = j then some v else s.S[j] := by
  simp [Vector.getElem_set, Fin.ext_iff]

/-- NEXT on a seeded engine whose two words hold values. -/
theorem execNext_of_values {s : State} {c : Fin 16} {s0 s1 : Word} (hs : s.SEEDED = true) (hc : s.CUR = some c)
    (h0 : s.S[c] = some s0) (h1 : s.S[c + 1] = some s1) :
    execNext s = .next (s.drawn (c + 1) (mix s0 s1)) := by
  have h1' : (s.writeCur (c + 1)).S[c + 1] = some s1 := h1
  rw [execNext, whenSeeded_of_seeded hs, State.readCur_of_some hc, State.readWord_of_some h0]
  simp only [State.readWord_of_some h1']
  rfl

theorem execNext_of_unseeded {s : State} (h : s.SEEDED = false) : execNext s = .next (s.raise .unseeded) :=
  whenSeeded_of_unseeded h _

/-- Everything a NEXT that completes can have done. -/
theorem execNext_cases {s t : State} (h : execNext s = .next t) :
    (s.SEEDED = false ∧ t = s.raise .unseeded) ∨
    (s.SEEDED = true ∧ ∃ c s0 s1, s.CUR = some c ∧ s.S[c] = some s0 ∧ s.S[c + 1] = some s1 ∧
      t = s.drawn (c + 1) (mix s0 s1)) := by
  rcases whenSeeded_next h with ⟨hs, h⟩ | ⟨hs, rfl⟩
  · obtain ⟨c, hc, h⟩ := State.readCur_next h
    obtain ⟨s0, h0, h⟩ := State.readWord_next h
    obtain ⟨s1, h1, h⟩ := State.readWord_next h
    injection h with h
    exact .inr ⟨hs, c, s0, s1, hc, h0, h1, h.symm⟩
  · exact .inl ⟨hs, rfl⟩

/-- The mix in one line. -/
theorem mix_eq (s0 s1 : Word) :
    mix s0 s1 = (s0 ^^^ (s0 >>> 30)) ^^^ ((s1 ^^^ (s1 <<< 31)) ^^^ ((s1 ^^^ (s1 <<< 31)) >>> 11)) := rfl

@[simp] theorem mix_zero : mix 0#64 0#64 = 0#64 := by decide

@[simp] theorem output_zero : output 0#64 = 0#64 := by decide

end Sys2Proof.Machine
end

