-- ==== Sys2Proof/Laws/Step.lean ====
section
/-! SUPPORT. Everything a step can do, and running several. -/

namespace Sys2Proof.Machine

theorem step_of_command {s : State} {c : Command} {rest : List Input} {i : Instr} (hp : s.pending = none)
    (hi : s.inputs = .command c :: rest) (hd : decode c = .ok i) : step s = exec i (s.withInputs rest) := by
  simp only [step, fetch, hi, State.whenIdle, hp, accept, hd]

theorem step_of_illegal {s : State} {c : Command} {rest : List Input} {e : Illegal} (hp : s.pending = none)
    (hi : s.inputs = .command c :: rest) (hd : decode c = .error e) :
    step s = .next ((s.withInputs rest).raise .illegal) := by
  simp only [step, fetch, hi, State.whenIdle, hp, accept, hd]

theorem step_of_answer {s : State} {got : List Draw} {a : EntropyAnswer} {rest : List Input}
    (hp : s.pending = some got) (hi : s.inputs = .entropy a :: rest) (ha : a.admitted s.entropyWidth = true) :
    step s = .next (s.drawEntropy got) := by
  simp only [step, fetch, hi, hp, ha, if_true]

theorem step_of_unadmitted {s : State} {got : List Draw} {a : EntropyAnswer} {rest : List Input}
    (hp : s.pending = some got) (hi : s.inputs = .entropy a :: rest) (ha : a.admitted s.entropyWidth = false) :
    step s = .refused .unadmittedDraw := by
  simp only [step, fetch, hi, hp, ha, Bool.false_eq_true, if_false]

theorem step_of_reset {s : State} {rest : List Input} (hi : s.inputs = .reset :: rest) :
    step s = .next (s.withInputs rest).applyReset := by
  simp only [step, fetch, hi]

theorem step_of_resetDuring {s : State} {c : Command} {rest : List Input} (hp : s.pending = none)
    (hi : s.inputs = .resetDuring c :: rest) : step s = .next (s.withInputs rest).applyReset := by
  simp only [step, fetch, hi, State.whenIdle, hp]

/-- Everything a step that completes can have done. -/
theorem step_cases {s t : State} (h : step s = .next t) :
    (∃ c rest i, s.pending = none ∧ s.inputs = .command c :: rest ∧ decode c = .ok i ∧
      exec i (s.withInputs rest) = .next t) ∨
    (∃ c rest e, s.pending = none ∧ s.inputs = .command c :: rest ∧ decode c = .error e ∧
      t = (s.withInputs rest).raise .illegal) ∨
    (∃ got a rest, s.pending = some got ∧ s.inputs = .entropy a :: rest ∧ t = s.drawEntropy got) ∨
    (∃ rest, (s.inputs = .reset :: rest ∨ ∃ c, s.pending = none ∧ s.inputs = .resetDuring c :: rest) ∧
      t = (s.withInputs rest).applyReset) := by
  cases hi : s.inputs with
  | nil => cases hp : s.pending <;> simp [step, fetch, hi, State.whenIdle, hp] at h
  | cons x rest =>
    cases x with
    | command c =>
      cases hp : s.pending with
      | some got => simp [step, fetch, hi, State.whenIdle, hp] at h
      | none =>
        cases hd : decode c with
        | ok i => exact .inl ⟨c, rest, i, rfl, rfl, hd, step_of_command hp hi hd ▸ h⟩
        | error e =>
          rw [step_of_illegal hp hi hd] at h
          injection h with h
          exact .inr (.inl ⟨c, rest, e, rfl, rfl, hd, h.symm⟩)
    | entropy a =>
      cases hp : s.pending with
      | none => simp [step, fetch, hi, hp] at h
      | some got =>
        cases ha : a.admitted s.entropyWidth with
        | false => rw [step_of_unadmitted hp hi ha] at h; cases h
        | true =>
          rw [step_of_answer hp hi ha] at h
          injection h with h
          exact .inr (.inr (.inl ⟨got, a, rest, rfl, rfl, h.symm⟩))
    | reset =>
      rw [step_of_reset hi] at h
      injection h with h
      exact .inr (.inr (.inr ⟨rest, .inl rfl, h.symm⟩))
    | resetDuring c =>
      cases hp : s.pending with
      | some got => simp [step, fetch, hi, State.whenIdle, hp] at h
      | none =>
        rw [step_of_resetDuring hp hi] at h
        injection h with h
        exact .inr (.inr (.inr ⟨rest, .inr ⟨c, rfl, rfl⟩, h.symm⟩))
    | secondHost c => simp [step, fetch, hi] at h

/-! ### Runs -/

@[simp] theorem State.run_zero (s : State) : s.run 0 = .next s := rfl

theorem State.run_succ {s t : State} (h : step s = .next t) (n : Nat) : s.run (n + 1) = t.run n := by
  simp only [State.run, h]

theorem core_run_of_next (M : Host.Core) {s t : M.State} (h : M.step s = .next t) (n : Nat) :
    M.run (n + 1) s = M.run n t := by simp only [Host.Core.run, h]

theorem core_run_of_fault (M : Host.Core) {s : M.State} {f : M.Fault} (h : M.step s = .fault f) (n : Nat) :
    M.run (n + 1) s = .fault f := by simp only [Host.Core.run, h]

theorem core_run_of_refused (M : Host.Core) {s : M.State} {r : M.Refusal} (h : M.step s = .refused r) (n : Nat) :
    M.run (n + 1) s = .refused r := by simp only [Host.Core.run, h]

/-- The host's own run of the machine is this one. -/
theorem core_run_eq (n : Nat) (s : State) : Sys2Proof.core.run n s = s.run n := by
  induction n generalizing s with
  | zero => rfl
  | succ n ih =>
    rw [State.run]
    cases hs : step s with
    | next t => exact (core_run_of_next Sys2Proof.core hs n).trans (ih t)
    | fault f => exact core_run_of_fault Sys2Proof.core hs n
    | refused r => exact core_run_of_refused Sys2Proof.core hs n

/-- Running n + m steps is running n and then m. -/
theorem State.run_add {s t : State} {n : Nat} (h : s.run n = .next t) (m : Nat) : s.run (n + m) = t.run m := by
  induction n generalizing s with
  | zero => simp at h; simp [h]
  | succ n ih =>
    rw [State.run] at h
    rw [Nat.succ_add, State.run]
    cases hs : step s with
    | next u => rw [hs] at h; exact ih h
    | fault f => rw [hs] at h; cases h
    | refused r => rw [hs] at h; cases h

end Sys2Proof.Machine
end

