-- ==== Sys2Proof/Tests/Slice0.lean ====
section
/-! SUPPORT. Tests, with the results the spec writes down (30_encoding.md, 95_test_vectors.md), and one witness
for the hypotheses of each statement. -/

namespace Sys2Proof.Tests

open Sys2Proof.Machine

/-! ### Small states -/

/-- A seeded engine with the given words and cursor. -/
def seededWith (ws : List Word) (c : Fin 16) : State :=
  { State.reset with S := Vector.ofFn fun i : Fin 16 => ws[i.val]?, CUR := some c, SEEDED := true }

/-- The array 1, 2, ..., 16 of the spec's examples. -/
def oneTo16 : List Word := [1, 2, 3, 4, 5, 6, 7, 8] ++ [9, 10, 11, 12, 13, 14, 15, 16]

/-- Sixteen zero words. -/
def zeros : List Word := List.replicate 16 0

/-- An unseeded engine of a given width, with what its world does next. -/
def unseededWith (w : EntropyWidth) (l : List Input) : State := { State.reset with entropyWidth := w, inputs := l }

/-- The next state, if there is one. -/
def nextOf : Result → Option State
  | .next s => some s
  | .fault _ => none
  | .refused _ => none

/-- What a result leaves in word `i`, in the cursor and in the flag, and the responses. -/
def shows (i : Fin 16) (r : Result) : Option (Option Word × Option (Fin 16) × Bool × List Response) :=
  (nextOf r).map fun s => (s.S[i], s.CUR, s.SEEDED, s.responses)

/-- The instruction a command decodes to. -/
def decoded (c : Command) : Option Instr :=
  match decode c with
  | .ok i => some i
  | .error _ => none

/-- Why a command is illegal. -/
def illegalBecause (c : Command) : Option Illegal :=
  match decode c with
  | .ok _ => none
  | .error e => some e

/-! ### WellFormed: one ill-formed term for each check -/

theorem test_seed_of_15_words_is_ill_formed : (Instr.seed (List.replicate 15 0)).wellFormed = false := by decide
theorem test_seed_of_17_words_is_ill_formed : (Instr.seed (List.replicate 17 0)).wellFormed = false := by decide
theorem test_setseed_of_no_words_is_ill_formed : (Instr.setseed []).wellFormed = false := by decide
theorem test_seed_of_16_words_is_well_formed : (Instr.seed zeros).wellFormed = true := by decide

/-! ### Decoding, the words written out from R61 and R62 -/

theorem test_decode_next :
    decoded ⟨0b00000000000000000000000000000001#32, []⟩ = some .next := by decide
theorem test_decode_seed :
    decoded ⟨0b00000000000000000000000000000010#32, zeros⟩ = some (.seed zeros) := by decide
theorem test_decode_setseed :
    decoded ⟨0b00000000000000000000000000000011#32, zeros⟩ = some (.setseed zeros) := by decide
theorem test_decode_selfseed :
    decoded ⟨0b00000000000000000000000000000100#32, []⟩ = some .selfseed := by decide
theorem test_decode_getstate :
    decoded ⟨0b00000000000000000000000000000101#32, []⟩ = some .getstate := by decide

/-- 95, section 3.5: OP 0x0 is reserved. -/
theorem test_decode_zero_word : illegalBecause ⟨0x00000000#32, []⟩ = some .reservedOp := by decide
/-- 95, section 3.5: OP 0x6 to 0xF are reserved. -/
theorem test_decode_reserved_ops :
    ∀ n : Fin 10, illegalBecause ⟨BitVec.ofNat 32 (6 + n.val), []⟩ = some .reservedOp := by decide
/-- 95, section 3.5: RSVD is not zero. -/
theorem test_decode_reserved_bits : illegalBecause ⟨0xFFFFFFF1#32, []⟩ = some .reservedBits := by decide
/-- 95, section 2.4: NEXT with one payload word. -/
theorem test_decode_next_with_payload : illegalBecause ⟨0x00000001#32, [0]⟩ = some .payloadLength := by decide
/-- 95, section 3.1: SEED with 15 and with 17 payload words. -/
theorem test_decode_seed_wrong_length :
    illegalBecause ⟨0x00000002#32, List.replicate 15 0⟩ = some .payloadLength ∧
    illegalBecause ⟨0x00000002#32, List.replicate 17 0⟩ = some .payloadLength := by decide

/-- A table row's 32 bits, its payload words zero. -/
theorem test_table_word_seed : decodeTableWord 32 2 = some (.seed zeros) := by decide
/-- Bits above the given number are dropped, so payload word 0 is zero here and one with 96 bits. -/
theorem test_table_word_payload :
    decodeTableWord 32 0x100000003 = some (.setseed zeros) ∧
    decodeTableWord 96 0x100000003 = some (.setseed (1 :: List.replicate 15 0)) := by decide

/-! ### NEXT -/

/-- 95, section 2.1: `>> 11` shifts the value that `<< 31` produced. -/
theorem test_next_shifts_the_updated_value :
    shows 1 (exec .next (seededWith (0 :: 1 :: List.replicate 14 0) 0)) =
      some (some 0x0000000080100001, some 1, true, [⟨0x00, [0xD7F7D22EAFE7FDB5]⟩]) := by decide

/-- 95, section 2.2: the cursor wraps from 15 to 0. -/
theorem test_next_wraps_the_cursor :
    shows 0 (exec .next (seededWith (0xFEDCBA9876543210 :: List.replicate 14 0 ++ [0x0123456789ABCDEF]) 15)) =
      some (some 0xC4CD5823897C20E7, some 0, true, [⟨0x00, [0x8FCE214F15888E53]⟩]) := by decide

/-! ### SEED and SETSEED -/

/-- R100's example, on an engine at another cursor. -/
theorem test_seed_zeroes_the_cursor :
    shows 15 (exec (.seed oneTo16) (seededWith zeros 7)) = some (some 16, some 0, true, [⟨0x00, []⟩]) := by decide

/-- R103's example: SETSEED keeps the cursor. -/
theorem test_setseed_keeps_the_cursor :
    shows 3 (exec (.setseed oneTo16) (seededWith zeros 2)) = some (some 4, some 2, true, [⟨0x00, []⟩]) := by decide

/-- 95, section 3.2: SETSEED after reset. -/
theorem test_setseed_unseeded :
    shows 3 (exec (.setseed oneTo16) State.reset) = some (none, none, false, [⟨0x02, []⟩]) := by decide

/-! ### SELFSEED -/

/-- 95, section 3.3, ENTROPY_WIDTH = 32: draws 1, 2, ..., 32. -/
theorem test_selfseed_width_32 :
    shows 15 (exec .selfseed (unseededWith .w32 (answers .w32 ((List.range 32).map fun k => BitVec.ofNat 32 (k + 1))))) =
      some (some 0x000000200000001F, some 0, true, [⟨0x00, []⟩]) := by decide

/-- 95, section 3.3, ENTROPY_WIDTH = 16: the third draw fails, whatever the state was before. -/
theorem test_selfseed_fails :
    shows 0 (exec .selfseed { seededWith oneTo16 5 with
      entropyWidth := .w16, inputs := answers .w16 [0x1111#16, 0x2222#16] ++ [.entropy .fail] }) =
      some (none, none, false, [⟨0x03, []⟩]) := by decide

/-- 95, section 3.3, "Chunk order" for the two narrow widths. -/
theorem test_chunk_order :
    assemble .w32 [0x89ABCDEF, 0x01234567] = 0x0123456789ABCDEF ∧
    assemble .w16 [0x1111, 0x2222, 0x3333, 0x4444] = 0x4444333322221111 := by decide

/-! ### GETSTATE -/

/-- 95, section 3.4. -/
theorem test_getstate_returns_the_words :
    shows 0 (exec .getstate (seededWith oneTo16 1)) = some (some 1, some 1, true, [⟨0x00, oneTo16⟩]) := by decide

/-- 95, section 3.4: GETSTATE after reset. -/
theorem test_getstate_unseeded :
    shows 0 (exec .getstate State.reset) = some (none, none, false, [⟨0x02, []⟩]) := by decide

/-! ### Steps -/

/-- 95, section 2.4: ILLEGAL takes priority over UNSEEDED. -/
theorem test_illegal_before_unseeded :
    shows 0 (step (State.reset.withFetchWord 32 0x80000001)) = some (none, none, false, [⟨0x01, []⟩]) := by decide

/-- Every row's word is run by the first step after reset. -/
theorem test_rows_run_after_reset :
    ∀ n : Fin 5, (nextOf (step (State.reset.withFetchWord 32 (n.val + 1)))).isSome = true := by decide

/-- 95, P6: a reset aborts the waiting SELFSEED, which never gets a response. -/
theorem test_reset_aborts_selfseed :
    shows 0 (step { seededWith oneTo16 3 with pending := some [⟨.w64, 7#64⟩], inputs := [.reset] }) =
      some (none, none, false, []) := by decide

/-! ### The textual form -/

/-- R68: mnemonics are case-insensitive, literals decimal or hexadecimal, and `;` starts a comment. -/
theorem test_assemble_seed :
    (match assembleLine "Seed 1,2,3,4,5,6,7,8, 9,10,11,12,13,14,15,0x10 ; the example" with
      | .ok is => is
      | .error _ => []) = [.seed oneTo16] := by decide

/-- R70: RESUME 3 is SEED of the rotated words (95, P3). -/
theorem test_resume_rotates :
    expandResume 3 [0, 1, 2, 3, 4, 5, 6, 7, 8, 9, 10, 11, 12, 13, 14, 15] =
      [.seed [3, 4, 5, 6, 7, 8, 9, 10, 11, 12, 13, 14, 15, 0, 1, 2]] := by decide

/-- R71: the listing of NEXT. -/
theorem test_listing_of_next :
    (listingRow .next ⟨0x00, [1]⟩).cmd = ['0', 'x'] ++ ['0', '0', '0', '0', '0', '0', '0', '1'] := by rfl

/-! ### Witnesses: states and operands that meet the hypotheses of each statement -/

theorem seededWith_valuesAgree {ws : List Word} (h : ws.length = 16) (c : Fin 16) : (seededWith ws c).ValuesAgree where
  cur_of_seeded _ := rfl
  words_of_seeded _ i := by simp [seededWith, h]
  cur_of_unseeded h := by cases h
  words_of_unseeded h := by cases h

theorem reset_valuesAgree : State.reset.ValuesAgree where
  cur_of_seeded h := by cases h
  words_of_seeded h := by cases h
  cur_of_unseeded _ := rfl
  words_of_unseeded _ := by decide

/-- The engine of the witnesses: seeded with 1..16 at cursor 15, its world to be filled in. -/
def engine (l : List Input) : State := { seededWith oneTo16 15 with inputs := l }

theorem engine_valuesAgree (l : List Input) : (engine l).ValuesAgree :=
  (seededWith_valuesAgree (by decide) 15).of_eq rfl rfl rfl

/-- The sixteen words 1..16 as a vector. -/
def vec : Vector Word 16 := Vector.ofFn fun i : Fin 16 => BitVec.ofNat 64 (i.val + 1)

theorem witness_DecodeOfEncodeIsTheInstruction : (Instr.seed zeros).wellFormed = true := by decide
theorem witness_EncodeOfDecodeIsTheCommand : decode ⟨0x00000003#32, oneTo16⟩ = .ok (.setseed oneTo16) := by
  rfl
theorem witness_BitsOfCommandDecodeToTheInstruction : (Instr.setseed oneTo16).wellFormed = true := by decide
theorem witness_FiveCommandWordsAndNoOther :
    zeros.length = 16 ∧ 0x00000006#32 ∉ [0x00000001#32, 0x00000002#32, 0x00000003#32, 0x00000004#32, 0x00000005#32] := by
  decide
/-- One command for each of the three conditions, and one legal command. -/
theorem witness_IllegalCommandsAreAnsweredAndChangeNothing :
    ∀ c ∈ [⟨0x00000006#32, []⟩, ⟨0x00000011#32, []⟩, ⟨0x00000002#32, []⟩, ⟨0x00000001#32, ([] : List Word)⟩],
      (engine [.command c]).pending = none ∧ (engine [.command c]).inputs = .command c :: [] :=
  fun _ _ => ⟨rfl, rfl⟩
theorem witness_StepRunsTheDecodedCommand :
    (engine [.command ⟨1, []⟩]).pending = none ∧ (engine [.command ⟨1, []⟩]).inputs = .command ⟨1, []⟩ :: [] ∧
      decode ⟨1, []⟩ = .ok .next := ⟨rfl, rfl, rfl⟩
theorem witness_PlacedWordRunsNext : decodeTableWord 32 5 = some .getstate := by decide
/-- The seeded clause at the last cursor, the unseeded clause, and the illegal clause. -/
theorem witness_NextIsOneXorshiftStep :
    ((engine []).SEEDED = true ∧ (engine []).CUR = some 15 ∧ (engine []).S[(15 : Fin 16)] = some 16 ∧
      (engine []).S[(15 : Fin 16) + 1] = some 1) ∧ State.reset.SEEDED = false ∧
    ((engine [.command ⟨0x11, []⟩]).pending = none ∧
      (0x11#32).extractLsb' 0 4 = 0x1#4 ∧ (0x11#32).extractLsb' 4 28 ≠ 0#28) := by decide
theorem witness_NextClosedForm :
    (engine []).SEEDED = true ∧ (engine []).CUR = some 15 ∧ (engine []).S[(15 : Fin 16)] = some 16 ∧
      (engine []).S[(15 : Fin 16) + 1] = some 1 ∧ ∃ t, exec .next (engine []) = .next t :=
  ⟨rfl, rfl, by decide, by decide, _, execNext_of_values (s := engine []) (c := 15) (s0 := 16) (s1 := 1) rfl rfl
    (by decide) (by decide)⟩
theorem witness_NextFrame : ∃ t, exec .next (engine []) = .next t := witness_NextClosedForm.2.2.2.2
/-- Both clauses at the last cursor: two zero words among others, and the all-zero array. -/
theorem witness_AllZeroArrayIsAFixedPoint :
    let u := seededWith (0 :: List.replicate 14 3 ++ [0]) 15
    let s : State := { seededWith zeros 15 with inputs := issue (expandSkip 2) ++ [] }
    (u.SEEDED = true ∧ u.CUR = some 15 ∧ u.S[(15 : Fin 16)] = some 0#64 ∧ u.S[(15 : Fin 16) + 1] = some 0#64) ∧
    s.pending = none ∧ s.SEEDED = true ∧ s.CUR = some 15 ∧ (∀ i : Fin 16, s.S[i] = some 0#64) ∧
      s.inputs = issue (expandSkip 2) ++ [] := ⟨by decide, rfl, rfl, rfl, by decide, rfl⟩
theorem witness_EqualEnginesAnswerAlike :
    let cmds : List Command := [⟨1, []⟩, ⟨5, []⟩, ⟨0, []⟩]
    let a := engine (cmds.map .command ++ [])
    let b := { engine (cmds.map .command ++ []) with responses := [⟨1, []⟩] }
    a.ValuesAgree ∧ b.ValuesAgree ∧ a.S = b.S ∧ a.CUR = b.CUR ∧ a.pending = none ∧ b.pending = none ∧
      (∀ c ∈ cmds, decode c ≠ .ok .selfseed) ∧ a.inputs = cmds.map .command ++ [] ∧
      b.inputs = cmds.map .command ++ [] := by
  refine ⟨engine_valuesAgree _, (engine_valuesAgree []).of_eq rfl rfl rfl, rfl, rfl, rfl, rfl, fun c hc => ?_, rfl, rfl⟩
  simp only [List.mem_cons, List.not_mem_nil, or_false] at hc
  rcases hc with rfl | rfl | rfl
  · rw [show decode ⟨1, []⟩ = .ok .next from rfl]; simp
  · rw [show decode ⟨5, []⟩ = .ok .getstate from rfl]; simp
  · rw [show decode ⟨0, []⟩ = .error .reservedOp from rfl]; simp
/-- Engine a at cursor 15 and engine b at cursor 12 with a's words rotated left by 3. -/
theorem witness_RotatedEnginesGiveEqualOutputs :
    let a := engine (issue (expandSkip 2) ++ [])
    let b : State := { seededWith (oneTo16.rotate 3) 12 with inputs := issue (expandSkip 2) ++ [] }
    a.ValuesAgree ∧ a.SEEDED = true ∧ b.SEEDED = true ∧ a.pending = none ∧ b.pending = none ∧ RotatedBy 3 a b ∧
      a.inputs = issue (expandSkip 2) ++ [] ∧ b.inputs = issue (expandSkip 2) ++ [] :=
  ⟨engine_valuesAgree _, rfl, rfl, rfl, rfl, ⟨by decide, by decide⟩, rfl, rfl⟩
theorem witness_CursorCountsSuccessfulNexts :
    let cmds : List Command := [⟨1, []⟩, ⟨3, oneTo16⟩, ⟨0, []⟩, ⟨1, []⟩]
    let s := engine (cmds.map .command ++ [])
    let u : State := { State.reset with inputs := .command (encode (.seed oneTo16)) :: cmds.map .command ++ [] }
    (s.ValuesAgree ∧ s.SEEDED = true ∧ s.CUR = some 15 ∧ s.pending = none ∧
      (∀ x ∈ cmds, decodesTo constructs x = false) ∧ s.inputs = cmds.map .command ++ []) ∧
    (oneTo16.length = 16 ∧ u.pending = none ∧
      u.inputs = .command (encode (.seed oneTo16)) :: cmds.map .command ++ []) :=
  ⟨⟨engine_valuesAgree _, rfl, rfl, rfl, by decide, rfl⟩, rfl, rfl, rfl⟩
/-- Words 1, 2 and 4, 8 and their sums 5, 10, at the last cursor. -/
theorem witness_StoredWordIsLinear :
    let st (p q : Word) : State := seededWith (q :: List.replicate 14 0 ++ [p]) 15
    (st 1 2).SEEDED = true ∧ (st 1 2).CUR = some 15 ∧ (st 1 2).S[(15 : Fin 16)] = some 1 ∧
      (st 1 2).S[(15 : Fin 16) + 1] = some 2 ∧ (st 4 8).S[(15 : Fin 16)] = some 4 ∧
      (st 4 8).S[(15 : Fin 16) + 1] = some 8 ∧ (st 5 10).S[(15 : Fin 16)] = some (1 ^^^ 4) ∧
      (st 5 10).S[(15 : Fin 16) + 1] = some (2 ^^^ 8) ∧ (nextOf (exec .next (st 1 2))).isSome ∧
      (nextOf (exec .next (st 4 8))).isSome ∧ (nextOf (exec .next (st 5 10))).isSome := by decide
theorem witness_SeedLoadsThePayloadAndZeroesTheCursor :
    zeros.length = 16 ∧ (engine [.command ⟨0x12, zeros⟩]).pending = none ∧
      (0x12#32).extractLsb' 0 4 = 0x2#4 ∧ (0x12#32).extractLsb' 4 28 ≠ 0#28 := by decide
theorem witness_SetseedLoadsThePayloadAndKeepsTheCursor :
    zeros.length = 16 ∧ (engine []).SEEDED = true ∧ State.reset.SEEDED = false ∧
      (engine [.command ⟨0x3, []⟩]).pending = none ∧ (0x3#32).extractLsb' 0 4 = 0x3#4 ∧
      ([] : List Word).length ≠ 16 := by decide
theorem witness_WrongPayloadLengthIsIllegal : (List.replicate 15 (0 : Word)).length ≠ 16 := by decide
theorem witness_GetstateReturnsTheArrayAndChangesNothing :
    (engine []).SEEDED = true ∧ (∀ i : Fin 16, (engine []).S[i] = some vec[i]) ∧ State.reset.SEEDED = false ∧
      (engine [.command ⟨0x15, []⟩]).pending = none ∧ (0x15#32).extractLsb' 0 4 = 0x5#4 ∧
      (0x15#32).extractLsb' 4 28 ≠ 0#28 := by decide
theorem witness_SeedingFrame :
    (nextOf (exec (.seed oneTo16) State.reset)).isSome ∧ (nextOf (exec (.setseed oneTo16) (engine []))).isSome ∧
      (nextOf (exec .getstate (engine []))).isSome := by decide
theorem witness_SeedingTwiceIsSeedingOnce :
    ∀ i ∈ [Instr.seed oneTo16, Instr.setseed oneTo16],
      ((nextOf (exec i (engine []))).bind fun t => nextOf (exec i t)).isSome := by decide
theorem witness_SeedReproducesTheSequence :
    let l := issue (.seed oneTo16 :: expandSkip 1) ++ []
    oneTo16.length = 16 ∧ (engine l).pending = none ∧ ({ State.reset with inputs := l } : State).pending = none :=
  ⟨rfl, rfl, rfl⟩
/-- A snapshot at cursor 15 and an unseeded engine that resumes it, one draw each. -/
theorem witness_ResumeContinuesTheSnapshot :
    let a := engine (issue (.getstate :: expandSkip 1))
    let b := unseededWith .w64 (issue (expandResume 15 vec.toList ++ expandSkip 1))
    a.SEEDED = true ∧ a.CUR = some 15 ∧ (∀ i : Fin 16, a.S[i] = some vec[i]) ∧ a.pending = none ∧
      b.pending = none ∧ a.inputs = issue (.getstate :: expandSkip 1) ++ [] ∧
      b.inputs = issue (expandResume 15 vec.toList ++ expandSkip 1) ++ [] :=
  ⟨rfl, rfl, by decide, rfl, rfl, (List.append_nil _).symm, (List.append_nil _).symm⟩
/-- A snapshot at cursor 0 and an unseeded engine that loads it, one draw each. -/
theorem witness_PlainSeedContinuesFromCursorZeroAndCanDifferElsewhere :
    let a := State.withInputs (issue (.getstate :: expandSkip 1)) (seededWith oneTo16 0)
    let b := unseededWith .w64 (issue (.seed vec.toList :: expandSkip 1))
    a.SEEDED = true ∧ a.CUR = some 0 ∧ (∀ i : Fin 16, a.S[i] = some vec[i]) ∧ a.pending = none ∧
      b.pending = none ∧ a.inputs = issue (.getstate :: expandSkip 1) ++ [] ∧
      b.inputs = issue (.seed vec.toList :: expandSkip 1) ++ [] :=
  ⟨rfl, rfl, by decide, rfl, rfl, (List.append_nil _).symm, (List.append_nil _).symm⟩
/-- A complete set of draws for each width, a failing last draw, a failing first draw, and an illegal form. -/
theorem witness_SelfseedConstructsFromTheDrawsOrFails :
    (∀ w : EntropyWidth, ∃ (s : State) (draws : List (BitVec s.entropyWidth.bits)) (e : Nat → Word),
      s.entropyWidth = w ∧ draws.length = 16 * (64 / s.entropyWidth.bits) ∧
      s.inputs = answers s.entropyWidth draws ++ [] ∧
      ∀ j, j < draws.length → draws[j]?.map (BitVec.setWidth 64) = some (e j)) ∧
    (List.replicate 63 (0 : BitVec 16)).length < 16 * (64 / EntropyWidth.w16.bits) ∧
    ([] : List Word).length < 16 * (64 / EntropyWidth.w64.bits) ∧
    (engine [.command ⟨0x104, []⟩]).pending = none ∧ (0x104#32).extractLsb' 0 4 = 0x4#4 ∧
      (0x104#32).extractLsb' 4 28 ≠ 0#28 := by
  refine ⟨fun w => ?_, by decide, by decide, by decide, by decide, by decide⟩
  refine ⟨unseededWith w (answers w (List.replicate (16 * (64 / w.bits)) 7) ++ []),
    List.replicate (16 * (64 / w.bits)) (7 : BitVec w.bits), fun _ => (7 : BitVec w.bits).setWidth 64, rfl,
    by simp [unseededWith], rfl, fun j hj => ?_⟩
  have hl : (List.replicate (16 * (64 / w.bits)) (7 : BitVec w.bits)).length = _ := List.length_replicate
  exact congrArg (Option.map (BitVec.setWidth 64)) (List.getElem?_replicate.trans (if_pos (hl ▸ hj)))
theorem witness_UnansweredDrawLeavesTheEngineStuck :
    let s := unseededWith .w64 (answers .w64 (List.replicate 15 0#64))
    (List.replicate 15 0#64).length < 16 * (64 / s.entropyWidth.bits) ∧
      s.inputs = answers s.entropyWidth (List.replicate 15 0#64) := by decide
theorem witness_LateAnswersGiveTheSameSelfseed :
    let s := unseededWith .w64 (answers .w64 [5#64])
    [5#64].length < 16 * (64 / s.entropyWidth.bits) ∧ startsWithAnswer s.entropyWidth [.entropy .fail] = true ∧
      (nextOf (exec .selfseed s)).isSome := by decide
/-- One run that succeeds and one that fails. -/
theorem witness_SelfseedDrawCount :
    ((nextOf (exec .selfseed (unseededWith .w64 (answers .w64 zeros)))).map (·.pending)) = some none ∧
    ((nextOf (exec .selfseed (unseededWith .w64 [.entropy .fail]))).map (·.pending)) = some none := by decide
/-- One run that waits and one that ends. -/
theorem witness_SelfseedFrame :
    ((nextOf (exec .selfseed (unseededWith .w64 []))).map (·.pending)) = some (some []) ∧
    ((nextOf (exec .selfseed (unseededWith .w64 [.entropy .fail]))).map (·.pending)) = some none := by decide
theorem witness_EachDrawFillsItsOwnBits :
    ∀ w : EntropyWidth, (List.replicate (16 * (64 / w.bits)) (0 : BitVec w.bits)).length = 16 * (64 / w.bits) ∧
      15 < 16 ∧ 64 / w.bits - 1 < 64 / w.bits := fun w => ⟨List.length_replicate, by decide, by cases w <;> decide⟩
/-- A 32-bit draw as the second answer to an engine of width 16. -/
theorem witness_DrawsOfAnotherWidthAreNotAdmitted :
    let d : Draw := ⟨.w32, 0x12345#32⟩
    let s := unseededWith .w16 (answers .w16 [1#16] ++ .entropy (.ok d) :: [])
    [1#16].length < 16 * (64 / s.entropyWidth.bits) ∧ d.width ≠ s.entropyWidth ∧
      s.inputs = answers s.entropyWidth [1#16] ++ .entropy (.ok d) :: [] := by decide
theorem witness_OnlySelfseedUsesTheEntropyPort :
    Instr.next ≠ .selfseed ∧ (nextOf (exec .next (engine []))).isSome := by decide
/-- An illegal command, an unseeded one, a successful one and a failing SELFSEED, each with its response. -/
theorem witness_OneStatusInPriorityOrder :
    ((nextOf (step { State.reset with inputs := [.command ⟨0x11, []⟩] })).map (·.responses)) = some [⟨0x01, []⟩] ∧
    ((nextOf (step { State.reset with inputs := [.command ⟨5, []⟩] })).map (·.responses)) = some [⟨0x02, []⟩] ∧
    ((nextOf (step { State.reset with inputs := [.command ⟨2, zeros⟩] })).map (·.responses)) = some [⟨0x00, []⟩] ∧
    ((nextOf (step { State.reset with inputs := [.command ⟨4, []⟩, .entropy .fail] })).map (·.responses)) =
      some [⟨0x03, []⟩] := by decide
theorem witness_UnseededEngineAnswersOnlyErrors :
    let cmds : List Command := [⟨1, []⟩, ⟨3, zeros⟩, ⟨5, []⟩, ⟨0, []⟩]
    State.reset.pending = none ∧ State.reset.SEEDED = false ∧ ∀ c ∈ cmds, decodesTo constructs c = false := by decide
/-- Each command answers OK somewhere, and NEXT answers an error somewhere. -/
theorem witness_ResponseDataByCommand :
    (∀ i ∈ [Instr.next, .seed zeros, .setseed zeros, .getstate],
      ((nextOf (exec i (engine []))).map fun t => t.responses.map (·.status)) = some [0x00]) ∧
    ((nextOf (exec .selfseed (unseededWith .w64 (answers .w64 zeros)))).map fun t => t.responses.map (·.status)) =
      some [0x00] ∧
    ((nextOf (exec .next State.reset)).map fun t => t.responses.map (·.status)) = some [0x02] := by decide
/-- A command for each of the three errors, the first on a seeded engine and the last on one too. -/
theorem witness_ErrorsArePrecise :
    ((nextOf (step (engine [.command ⟨0, []⟩]))).map (·.responses)) = some [⟨0x01, []⟩] ∧
    ((nextOf (step { State.reset with inputs := [.command ⟨1, []⟩] })).map (·.responses)) = some [⟨0x02, []⟩] ∧
    ((nextOf (step (engine [.command ⟨4, []⟩, .entropy .fail]))).map (·.responses)) = some [⟨0x03, []⟩] := by
  decide
theorem witness_ResetAbortsTheCommand :
    ({ engine [.reset] with pending := some [⟨.w64, 1#64⟩] } : State).inputs = .reset :: [] ∧
    ((engine [.resetDuring ⟨1, []⟩]).pending = none ∧
      (engine [.resetDuring ⟨1, []⟩]).inputs = .resetDuring ⟨1, []⟩ :: []) := ⟨rfl, rfl, rfl⟩
theorem witness_EveryStepKeepsTheInvariant :
    ∃ s t : State, s.Inv ∧ step s = .next t :=
  ⟨engine [.reset], _, ⟨engine_valuesAgree _, fun _ h => (by cases h), fun _ h => (by cases h)⟩, step_of_reset rfl⟩
theorem witness_NoStepReadsALocationWithoutValue : (engine []).ValuesAgree ∧ State.reset.ValuesAgree :=
  ⟨engine_valuesAgree _, reset_valuesAgree⟩
theorem witness_CursorIsWrittenAsTabled :
    (engine []).SEEDED = true ∧ (nextOf (exec .next (engine []))).isSome ∧ zeros.length = 16 ∧
      (nextOf (exec (.seed zeros) (engine []))).isSome ∧
      ((nextOf (exec .selfseed (unseededWith .w64 (answers .w64 zeros)))).map (·.responses)) = some [⟨0x00, []⟩] ∧
      ((nextOf (exec .selfseed (engine [.entropy .fail]))).map (·.responses)) = some [⟨0x03, []⟩] ∧
      (nextOf (step (engine [.reset]))).isSome ∧ (nextOf (exec (.setseed zeros) (engine []))).isSome ∧
      (nextOf (exec .getstate (engine []))).isSome := by decide
theorem witness_HostCannotChooseTheCursor : (nextOf (step (engine [.command ⟨1, []⟩]))).isSome := by decide
theorem witness_SeededFlagIsWrittenAsTabled :
    zeros.length = 16 ∧ (nextOf (exec (.seed zeros) (engine []))).isSome ∧
      ((nextOf (exec .selfseed (unseededWith .w64 (answers .w64 zeros)))).map (·.responses)) = some [⟨0x00, []⟩] ∧
      ((nextOf (exec .selfseed (engine [.entropy .fail]))).map (·.responses)) = some [⟨0x03, []⟩] ∧
      (nextOf (step (engine [.reset]))).isSome ∧
      ∀ i ∈ [Instr.next, .setseed zeros, .getstate], constructs i = false ∧ (nextOf (exec i (engine []))).isSome := by
  decide
theorem witness_EveryCommandIsAnsweredUnlessItWaitsForEntropy :
    let s := engine [.command ⟨4, []⟩]
    s.ValuesAgree ∧ s.pending = none ∧ s.inputs = .command ⟨4, []⟩ :: [] := ⟨engine_valuesAgree _, rfl, rfl⟩
theorem witness_IdleEngineTakesNoStepOfItsOwn :
    State.reset.inputs = [] ∧ State.reset.pending = none ∧ ({ State.reset with pending := some [] } : State).inputs = [] :=
  ⟨rfl, rfl, rfl⟩
theorem witness_SecondHostIsRefused : (engine [.secondHost ⟨1, []⟩]).inputs = .secondHost ⟨1, []⟩ :: [] := rfl
/-- Two engines: the first runs, the second has a second host; and a run of the first alone goes through. -/
theorem witness_EnginesAreIndependent :
    let p : Platform := [engine [.reset], engine [.secondHost ⟨1, []⟩]]
    (match stepEngines [0, 0] p with
      | .next q => q.length
      | .fault _ => 0
      | .refused _ => 0) = 2 ∧
    (match stepEngines [0, 1] p with
      | .next _ => none
      | .fault _ => none
      | .refused r => some r) = some .unsynchronisedHosts := by decide
/-- The race comes on engine 1 after engine 0 has had its turn. -/
theorem witness_SecondHostRefusesTheWholeRun :
    let p : Platform := [engine [.reset], engine [.secondHost ⟨1, []⟩]]
    ∃ q s, stepEngines [0] p = .next q ∧ q[1]? = some s ∧ s.inputs = .secondHost ⟨1, []⟩ :: [] :=
  ⟨_, _, rfl, rfl, rfl⟩
theorem witness_EntropyWidthIsAdmittedAndFixed :
    (8 : Nat) ∉ [16, 32, 64] ∧ (nextOf (step (engine [.reset]))).isSome := by decide
theorem witness_ListingLineAssemblesToItsCommand : (Instr.seed oneTo16).wellFormed = true := by decide
/-- One operand list for each clause. -/
theorem witness_OperandCountsAreCheckedAndNothingIsPadded :
    ([] : List (List Char)).length ≠ 16 ∧ ([] : List (List Char)).length ≠ 17 ∧ ([] : List (List Char)).length ≠ 1 ∧
      (match seedOperands .seed (List.replicate 16 ['1']) with
        | .ok is => is
        | .error _ => []) = [.seed (List.replicate 16 1)] := by decide

/-- A line for each of the three clauses: RESUME at the top of its range, one operand too many, no mnemonic of R68
to R70. -/
theorem witness_LineAssemblesExactlyToItsCommands :
    (match assembleLine "RESUME 15, 1,2,3,4,5,6,7,8,9,10,11,12,13,14,15,18446744073709551615" with
      | .ok is => is
      | .error _ => []) = [.seed [0xFFFFFFFFFFFFFFFF, 1, 2, 3, 4, 5, 6, 7, 8, 9, 10, 11, 12, 13, 14, 15]] ∧
      lineMnemonic "next 1".toList = "NEXT".toList ∧ (lineOperands "next 1".toList).length ≠ 0 ∧
      lineMnemonic "DRAW".toList ≠ [] ∧
      ∀ m ∈ ["NEXT", "SEED", "SETSEED", "SELFSEED", "GETSTATE", "SKIP", "RESUME"],
        lineMnemonic "DRAW".toList ≠ m.toList := by decide

end Sys2Proof.Tests
end

section
/-! PROOFS. The scope of the model (spec/00_scope.md): no read of ⊥, the build parameter, and no step without an
input. -/

namespace Sys2Proof

/-- The configuration reads exactly the bit counts of the three widths. -/
theorem EntropyWidth.ofBits_eq_some_iff {n : Nat} {w : EntropyWidth} :
    EntropyWidth.ofBits n = some w ↔ w.bits = n := by
  constructor
  · intro h
    unfold EntropyWidth.ofBits at h
    split_ifs at h with h16 h32 h64 <;> cases h
    · exact h16.symm
    · exact h32.symm
    · exact h64.symm
  · rintro rfl
    cases w <;> rfl

/-- The three widths of R9. -/
theorem EntropyWidth.exists_bits_eq_iff {n : Nat} : (∃ w : EntropyWidth, w.bits = n) ↔ n = 16 ∨ n = 32 ∨ n = 64 := by
  constructor
  · rintro ⟨w, rfl⟩
    cases w with
    | w16 => exact .inl rfl
    | w32 => exact .inr (.inl rfl)
    | w64 => exact .inr (.inr rfl)
  · rintro (rfl | rfl | rfl)
    exacts [⟨.w16, rfl⟩, ⟨.w32, rfl⟩, ⟨.w64, rfl⟩]

end Sys2Proof

namespace Sys2Proof.Machine

/-! ### Every command on a state that keeps R22 completes -/

theorem State.ValuesAgree.withInputs {s : State} (h : s.ValuesAgree) (l : List Input) :
    (s.withInputs l).ValuesAgree := h.of_eq rfl rfl rfl

theorem execNext_completes {s : State} (h : s.ValuesAgree) : ∃ t, execNext s = .next t := by
  cases hs : s.SEEDED with
  | false => exact ⟨_, execNext_of_unseeded hs⟩
  | true =>
    obtain ⟨c, hc⟩ := Option.isSome_iff_exists.mp (h.cur_of_seeded hs)
    obtain ⟨s0, h0⟩ := Option.isSome_iff_exists.mp (h.words_of_seeded hs c)
    obtain ⟨s1, h1⟩ := Option.isSome_iff_exists.mp (h.words_of_seeded hs (c + 1))
    exact ⟨_, execNext_of_values hs hc h0 h1⟩

theorem execSeed_completes (d : List Word) (s : State) : ∃ t, execSeed d s = .next t := by
  by_cases hd : d.length = 16
  · exact ⟨_, execSeed_of_sixteen hd s⟩
  · exact ⟨_, execSeed_of_wrong hd s⟩

theorem execSetseed_completes (d : List Word) (s : State) : ∃ t, execSetseed d s = .next t := by
  by_cases hd : d.length = 16
  · cases hs : s.SEEDED with
    | true => exact ⟨_, execSetseed_of_seeded hd hs⟩
    | false => exact ⟨_, execSetseed_of_unseeded hd hs⟩
  · exact ⟨_, execSetseed_of_wrong hd s⟩

theorem execGetstate_completes {s : State} (h : s.ValuesAgree) : ∃ t, execGetstate s = .next t := by
  cases hs : s.SEEDED with
  | false => exact ⟨_, execGetstate_of_unseeded hs⟩
  | true =>
    obtain ⟨ws, hw⟩ := h.words hs
    exact ⟨_, execGetstate_of_values hs hw⟩

/-- Where SEEDED = 1 exactly when there are values (R22), each command has a next state. -/
theorem exec_completes {s : State} (h : s.ValuesAgree) (i : Instr) : ∃ t, exec i s = .next t := by
  cases i with
  | next => exact execNext_completes h
  | seed d => exact execSeed_completes d s
  | setseed d => exact execSetseed_completes d s
  | selfseed => exact ⟨s.drawEntropy [], rfl⟩
  | getstate => exact execGetstate_completes h

/-! ### Faults -/

theorem step_of_idle_without_input {s : State} (hp : s.pending = none) (hi : s.inputs = []) :
    step s = .fault .awaitingCommand := by
  simp only [step, fetch, hi, State.whenIdle, hp]

theorem step_of_waiting_without_input {s : State} {got : List Draw} (hp : s.pending = some got)
    (hi : s.inputs = []) : step s = .fault .awaitingEntropy := by
  simp only [step, fetch, hi, State.whenIdle, hp]

theorem step_of_command_while_waiting {s : State} {got : List Draw} {c : Command} {rest : List Input}
    (hp : s.pending = some got) (hi : s.inputs = .command c :: rest) : step s = .fault .awaitingEntropy := by
  simp only [step, fetch, hi, State.whenIdle, hp]

theorem step_of_resetDuring_while_waiting {s : State} {got : List Draw} {c : Command} {rest : List Input}
    (hp : s.pending = some got) (hi : s.inputs = .resetDuring c :: rest) : step s = .fault .awaitingEntropy := by
  simp only [step, fetch, hi, State.whenIdle, hp]

theorem step_of_unrequested {s : State} {a : EntropyAnswer} {rest : List Input} (hp : s.pending = none)
    (hi : s.inputs = .entropy a :: rest) : step s = .refused .unrequestedAnswer := by
  simp only [step, fetch, hi, hp]

theorem step_of_secondHost {s : State} {c : Command} {rest : List Input} (hi : s.inputs = .secondHost c :: rest) :
    step s = .refused .unsynchronisedHosts := by
  simp only [step, fetch, hi]

/-- Everything a step that ends in a fault can have been: an idle engine without input, a SELFSEED that waits, or
a command whose meaning is that fault. -/
theorem step_fault_cases {s : State} {f : Fault} (h : step s = .fault f) :
    (f = .awaitingCommand ∧ s.pending = none ∧ s.inputs = []) ∨
    (f = .awaitingEntropy ∧ ∃ got, s.pending = some got) ∨
    (∃ c rest i, s.pending = none ∧ s.inputs = .command c :: rest ∧ decode c = .ok i ∧
      exec i (s.withInputs rest) = .fault f) := by
  cases hp : s.pending with
  | none =>
    cases hi : s.inputs with
    | nil =>
      rw [step_of_idle_without_input hp hi] at h
      cases h
      exact .inl ⟨rfl, rfl, rfl⟩
    | cons x rest =>
      cases x with
      | command c =>
        cases hd : decode c with
        | ok i => exact .inr (.inr ⟨c, rest, i, rfl, rfl, hd, step_of_command hp hi hd ▸ h⟩)
        | error e => rw [step_of_illegal hp hi hd] at h; cases h
      | entropy a => rw [step_of_unrequested hp hi] at h; cases h
      | reset => rw [step_of_reset hi] at h; cases h
      | resetDuring c => rw [step_of_resetDuring hp hi] at h; cases h
      | secondHost c => rw [step_of_secondHost hi] at h; cases h
  | some got =>
    refine .inr (.inl ⟨?_, got, rfl⟩)
    cases hi : s.inputs with
    | nil => rw [step_of_waiting_without_input hp hi] at h; cases h; rfl
    | cons x rest =>
      cases x with
      | command c => rw [step_of_command_while_waiting hp hi] at h; cases h; rfl
      | entropy a =>
        cases ha : a.admitted s.entropyWidth with
        | true => rw [step_of_answer hp hi ha] at h; cases h
        | false => rw [step_of_unadmitted hp hi ha] at h; cases h
      | reset => rw [step_of_reset hi] at h; cases h
      | resetDuring c => rw [step_of_resetDuring_while_waiting hp hi] at h; cases h; rfl
      | secondHost c => rw [step_of_secondHost hi] at h; cases h

/-! ### ENTROPY_WIDTH -/

theorem State.configured_eq_some_iff {n : Nat} {s : State} :
    State.configured n = some s ↔ ∃ w : EntropyWidth, w.bits = n ∧ { State.reset with entropyWidth := w } = s := by
  simp only [State.configured, Option.map_eq_some_iff, EntropyWidth.ofBits_eq_some_iff]

theorem State.configured_eq_none_iff {n : Nat} : State.configured n = none ↔ ¬ ∃ w : EntropyWidth, w.bits = n := by
  rw [State.configured, Option.map_eq_none_iff, Option.eq_none_iff_forall_ne_some]
  simp only [ne_eq, EntropyWidth.ofBits_eq_some_iff, not_exists]

/-- However the draws end, the width they were drawn with stays. -/
theorem State.drawEntropy_entropyWidth (s : State) (got : List Draw) :
    (s.drawEntropy got).entropyWidth = s.entropyWidth := by
  cases h : takeDraws s.entropyWidth got s.inputs with
  | complete draws rest => rw [State.drawEntropy_of_complete h]; rfl
  | failed rest => rw [State.drawEntropy_of_failed h]; rfl
  | waiting draws rest => rw [State.drawEntropy_of_waiting h]; rfl

theorem exec_entropyWidth {i : Instr} {s t : State} (h : exec i s = .next t) : t.entropyWidth = s.entropyWidth := by
  cases i with
  | next =>
    rcases execNext_cases h with ⟨_, rfl⟩ | ⟨_, c, s0, s1, _, _, _, rfl⟩
    · rfl
    · rfl
  | seed d =>
    rcases execSeed_cases h with ⟨_, rfl⟩ | ⟨_, rfl⟩
    · rfl
    · rfl
  | setseed d =>
    rcases execSetseed_cases h with ⟨_, _, rfl⟩ | ⟨_, _, rfl⟩ | ⟨_, rfl⟩
    · rfl
    · rfl
    · rfl
  | selfseed =>
    cases h
    exact s.drawEntropy_entropyWidth []
  | getstate =>
    rcases execGetstate_cases h with ⟨_, ws, _, rfl⟩ | ⟨_, rfl⟩
    · rfl
    · rfl

/-- R9: the width is fixed for the life of the engine, through every step. -/
theorem step_entropyWidth {s t : State} (h : step s = .next t) : t.entropyWidth = s.entropyWidth := by
  rcases step_cases h with ⟨_, rest, _, _, _, _, h⟩ | ⟨_, rest, _, _, _, _, rfl⟩ | ⟨got, _, _, _, _, rfl⟩ |
    ⟨rest, _, rfl⟩
  case inl => exact (exec_entropyWidth h).trans (s.withInputs_entropyWidth rest)
  case inr.inl => rfl
  case inr.inr.inl => exact s.drawEntropy_entropyWidth got
  case inr.inr.inr => rfl

/-! ### The statements -/

/-- Settles O41: a fault of a step is a wait or a command's own, and under R22 every command completes. -/
theorem noStepReadsALocationWithoutValue : Obligations.NoStepReadsALocationWithoutValue := by
  intro s hv h
  rcases step_fault_cases h with ⟨hf, _⟩ | ⟨hf, _⟩ | ⟨_, rest, i, _, _, _, he⟩
  · cases hf
  · cases hf
  · obtain ⟨t, ht⟩ := exec_completes (hv.withInputs rest) i
    rw [ht] at he
    cases he

/-- Settles O48, from what the configuration reads and what a step leaves of the width. -/
theorem entropyWidthIsAdmittedAndFixed : Obligations.EntropyWidthIsAdmittedAndFixed := by
  refine ⟨fun n => ?_, fun n hn => ?_, fun _ _ => step_entropyWidth⟩
  · rw [← EntropyWidth.exists_bits_eq_iff]
    constructor
    · rintro ⟨s, _, hw⟩
      exact ⟨s.entropyWidth, hw⟩
    · rintro ⟨w, hw⟩
      exact ⟨_, State.configured_eq_some_iff.mpr ⟨w, hw, rfl⟩, hw⟩
  · rw [State.configured_eq_none_iff, EntropyWidth.exists_bits_eq_iff]
    simpa using hn

/-- Settles O46: without input an idle engine waits for a command, and a SELFSEED in progress for entropy. -/
theorem idleEngineTakesNoStepOfItsOwn : Obligations.IdleEngineTakesNoStepOfItsOwn := by
  intro s hi
  cases hp : s.pending with
  | none => exact ⟨_, step_of_idle_without_input hp hi, fun _ => rfl⟩
  | some got => exact ⟨_, step_of_waiting_without_input hp hi, nofun⟩

end Sys2Proof.Machine
end

section
/-! PROOFS. The state: the invariant (R22, R25, R131), the frame of each command, and who writes CUR and SEEDED. -/

namespace Sys2Proof.Machine

/-! ### What a constructed and a self-seeded engine hold -/

/-- What SEED and SELFSEED make of the engine before they answer (R100, R110): the array loaded, CUR = 0 and
SEEDED = 1. -/
def State.constructed (d : List Word) (s : State) : State := ((s.loadArray d).writeCur 0).markSeeded

/-- SEED and SELFSEED construct alike (R110): the assembled array is SELFSEED's payload. -/
theorem State.selfseeded_eq (draws : List Draw) (rest : List Input) (s : State) :
    s.selfseeded draws rest =
      (((s.withInputs rest).withPending none).constructed (assembleArray s.entropyWidth draws)).respond .ok [] := rfl

section
variable (s : State) (d : List Word) (draws : List Draw) (rest : List Input)

@[simp] theorem State.constructed_getElem (i : Fin 16) : (s.constructed d).S[i] = d[i.val]? := s.loadArray_getElem d i
@[simp] theorem State.constructed_CUR : (s.constructed d).CUR = some 0 := rfl
@[simp] theorem State.constructed_SEEDED : (s.constructed d).SEEDED = true := rfl
@[simp] theorem State.constructed_pending : (s.constructed d).pending = s.pending := by simp [State.constructed]
@[simp] theorem State.constructed_entropyWidth : (s.constructed d).entropyWidth = s.entropyWidth := by
  simp [State.constructed]
@[simp] theorem State.constructed_responses : (s.constructed d).responses = s.responses := by simp [State.constructed]

@[simp] theorem State.selfseeded_CUR : (s.selfseeded draws rest).CUR = some 0 := rfl
@[simp] theorem State.selfseeded_SEEDED : (s.selfseeded draws rest).SEEDED = true := rfl
@[simp] theorem State.selfseeded_pending : (s.selfseeded draws rest).pending = none := rfl
@[simp] theorem State.selfseeded_inputs : (s.selfseeded draws rest).inputs = rest := rfl
@[simp] theorem State.selfseeded_responses :
    (s.selfseeded draws rest).responses = s.responses ++ [⟨0x00#8, []⟩] := by simp [State.selfseeded]

end

@[simp] theorem State.reset_getElem (i : Fin 16) : State.reset.S[i] = none := by simp [State.reset]

/-- The three ends of a SELFSEED issued on `s` (R110, R134, R117), with what it took of the inputs. -/
theorem execSelfseed_cases {s t : State} (h : execSelfseed s = .next t) :
    (∃ draws rest, t = s.selfseeded draws rest ∧ rest <:+ s.inputs) ∨
    (∃ rest, t = ((s.withInputs rest).withPending none).raise .entropy ∧ rest <:+ s.inputs) ∨
    (∃ draws rest, t = (s.withInputs rest).withPending (some draws) ∧ rest <:+ s.inputs) := by
  cases h
  rcases s.drawEntropy_cases [] (totalDraws_pos _) with
    ⟨draws, rest, ht, hi, _⟩ | ⟨draws, rest, ht, hi, _⟩ | ⟨draws, rest, ht, hi, _⟩
  · exact .inl ⟨_, rest, ht, _, hi.symm⟩
  · exact .inr (.inl ⟨rest, ht, answers s.entropyWidth draws ++ [Input.entropy .fail], by simp [hi]⟩)
  · exact .inr (.inr ⟨_, rest, ht, _, hi.symm⟩)

/-! ### The three parts of the invariant -/

theorem State.ValuesAgree.of_seeded {s : State} (hF : s.SEEDED = true) (hC : s.CUR.isSome)
    (hS : ∀ i : Fin 16, s.S[i].isSome) : s.ValuesAgree where
  cur_of_seeded _ := hC
  words_of_seeded _ := hS
  cur_of_unseeded h := by rw [hF] at h; cases h
  words_of_unseeded h := by rw [hF] at h; cases h

theorem State.ValuesAgree.of_unseeded {s : State} (hF : s.SEEDED = false) (hC : s.CUR = none)
    (hS : ∀ i : Fin 16, s.S[i] = none) : s.ValuesAgree where
  cur_of_seeded h := by rw [hF] at h; cases h
  words_of_seeded h := by rw [hF] at h; cases h
  cur_of_unseeded _ := hC
  words_of_unseeded _ := hS

theorem State.PendingShort.of_none {s : State} (h : s.pending = none) : s.PendingShort := by
  intro got hg
  rw [h] at hg
  cases hg

theorem State.PendingShort.of_some {s : State} {got : List Draw} (h : s.pending = some got)
    (hl : got.length < totalDraws s.entropyWidth) (hw : ∀ d ∈ got, d.width = s.entropyWidth) : s.PendingShort := by
  intro got' hg
  rw [h] at hg
  cases hg
  exact ⟨hl, hw⟩

theorem State.ResponsesLegal.respond {s : State} (h : s.ResponsesLegal) {st : Status} {data : List Word}
    (hr : (Response.mk st.code data).legal = true) : (s.respond st data).ResponsesLegal := by
  intro r hm
  rw [State.respond_responses, List.mem_append, List.mem_singleton] at hm
  rcases hm with hm | rfl
  · exact h r hm
  · exact hr

/-- R131: every status may come without data words. -/
theorem Response.legal_of_no_data (st : Status) : (Response.mk st.code []).legal = true := by cases st <;> decide

/-- R131: OK may come with one data word or with sixteen. -/
theorem Response.legal_ok {data : List Word} (h : data.length = 1 ∨ data.length = 16) :
    (Response.mk Status.ok.code data).legal = true := by
  rcases h with h | h <;> simp [Response.legal, h]

/-! ### Each operation on the state keeps the invariant -/

section
variable {s : State} (h : s.Inv)
include h

/-- The invariant is about nothing else than the values, the draws of a SELFSEED in progress and the responses. -/
theorem State.Inv.of_valuesAgree {t : State} (hv : t.ValuesAgree) (hp : t.pending = s.pending)
    (hw : t.entropyWidth = s.entropyWidth) (hr : t.responses = s.responses) : t.Inv where
  valuesAgree := hv
  pendingShort := by unfold State.PendingShort; rw [hp, hw]; exact h.pendingShort
  responsesLegal := by unfold State.ResponsesLegal; rw [hr]; exact h.responsesLegal

theorem State.Inv.withInputs (l : List Input) : (s.withInputs l).Inv :=
  h.of_valuesAgree (h.valuesAgree.withInputs l) rfl rfl rfl

theorem State.Inv.withPending_none : (s.withPending none).Inv :=
  ⟨h.valuesAgree.of_eq rfl rfl rfl, .of_none rfl, h.responsesLegal⟩

theorem State.Inv.withPending_some {got : List Draw} (hl : got.length < totalDraws s.entropyWidth)
    (hw : ∀ d ∈ got, d.width = s.entropyWidth) : (s.withPending (some got)).Inv :=
  ⟨h.valuesAgree.of_eq rfl rfl rfl, .of_some rfl hl hw, h.responsesLegal⟩

theorem State.Inv.respond {st : Status} {data : List Word} (hr : (Response.mk st.code data).legal = true) :
    (s.respond st data).Inv :=
  ⟨h.valuesAgree.of_eq rfl rfl rfl, h.pendingShort, h.responsesLegal.respond hr⟩

theorem State.Inv.unseed : s.unseed.Inv :=
  h.of_valuesAgree (.of_unseeded rfl rfl s.unseed_getElem) rfl rfl rfl

theorem State.Inv.raise (e : EngineError) : (s.raise e).Inv := by
  cases e with
  | illegal => exact h.respond (Response.legal_of_no_data .errIllegal)
  | unseeded => exact h.respond (Response.legal_of_no_data .errUnseeded)
  | entropy => exact h.unseed.respond (Response.legal_of_no_data .errEntropy)

theorem State.Inv.applyReset : s.applyReset.Inv := h.unseed.withPending_none

/-- Sixteen words leave none of the sixteen locations without a value. -/
theorem State.Inv.constructed {d : List Word} (hd : d.length = 16) : (s.constructed d).Inv := by
  have hS (i : Fin 16) : (s.constructed d).S[i].isSome := by rw [s.constructed_getElem]; simp [hd]
  exact h.of_valuesAgree (.of_seeded rfl rfl hS) (s.constructed_pending d) (s.constructed_entropyWidth d)
    (s.constructed_responses d)

theorem State.Inv.loadArray {d : List Word} (hd : d.length = 16) (hs : s.SEEDED = true) : (s.loadArray d).Inv := by
  have hS (i : Fin 16) : (s.loadArray d).S[i].isSome := by rw [s.loadArray_getElem]; simp [hd]
  have hF : (s.loadArray d).SEEDED = true := by simpa using hs
  have hC : (s.loadArray d).CUR.isSome := by simpa using h.valuesAgree.cur_of_seeded hs
  exact h.of_valuesAgree (.of_seeded hF hC hS) (s.loadArray_pending d)
    (s.loadArray_entropyWidth d) (s.loadArray_responses d)

theorem State.Inv.drawn (hs : s.SEEDED = true) (c : Fin 16) (v : Word) : (s.drawn c v).Inv := by
  have hS (j : Fin 16) : ((s.writeCur c).writeWord c v).S[j].isSome := by
    rw [State.writeWord_getElem]
    split_ifs
    · rfl
    · exact h.valuesAgree.words_of_seeded hs j
  have hw : ((s.writeCur c).writeWord c v).Inv := h.of_valuesAgree (.of_seeded hs rfl hS) rfl rfl rfl
  exact hw.respond (Response.legal_ok (.inl rfl))

/-! ### Each command, and each step, keeps it -/

/-- The draws a SELFSEED has when it waits are those it had and some of the port's, all of ENTROPY_WIDTH bits. -/
theorem State.Inv.drawEntropy {got : List Draw} (hl : got.length < totalDraws s.entropyWidth)
    (hw : ∀ d ∈ got, d.width = s.entropyWidth) : (s.drawEntropy got).Inv := by
  rcases s.drawEntropy_cases got hl with
    ⟨draws, rest, ht, _, _⟩ | ⟨draws, rest, ht, _, _⟩ | ⟨draws, rest, ht, _, hn, _⟩
  · rw [ht, State.selfseeded_eq]
    exact ((h.withInputs rest).withPending_none.constructed (assembleArray_length _ _)).respond
      (Response.legal_of_no_data .ok)
  · rw [ht]
    exact (h.withInputs rest).withPending_none.raise .entropy
  · rw [ht]
    refine (h.withInputs rest).withPending_some (by simpa using hn) fun d hd => ?_
    rcases List.mem_append.mp hd with hd | hd
    · exact hw d hd
    · obtain ⟨e, _, rfl⟩ := List.mem_map.mp hd
      rfl

theorem State.Inv.exec {i : Instr} {t : State} (he : exec i s = .next t) : t.Inv := by
  cases i with
  | next =>
    rcases execNext_cases he with ⟨_, rfl⟩ | ⟨hs, c, s0, s1, _, _, _, rfl⟩
    · exact h.raise .unseeded
    · exact h.drawn hs (c + 1) (mix s0 s1)
  | seed d =>
    rcases execSeed_cases he with ⟨hd, rfl⟩ | ⟨_, rfl⟩
    · exact (h.constructed hd).respond (Response.legal_of_no_data .ok)
    · exact h.raise .illegal
  | setseed d =>
    rcases execSetseed_cases he with ⟨hd, hs, rfl⟩ | ⟨_, _, rfl⟩ | ⟨_, rfl⟩
    · exact (h.loadArray hd hs).respond (Response.legal_of_no_data .ok)
    · exact h.raise .unseeded
    · exact h.raise .illegal
  | selfseed =>
    cases he
    exact h.drawEntropy (totalDraws_pos _) (by simp)
  | getstate =>
    rcases execGetstate_cases he with ⟨_, ws, hws, rfl⟩ | ⟨_, rfl⟩
    · have hlen : ws.length = 16 := by simpa using (congrArg List.length hws).symm
      exact h.respond (Response.legal_ok (.inr hlen))
    · exact h.raise .unseeded

theorem State.Inv.step {t : State} (ht : step s = .next t) : t.Inv := by
  rcases step_cases ht with ⟨_, rest, _, _, _, _, he⟩ | ⟨_, rest, _, _, _, _, rfl⟩ | ⟨got, _, _, hp, _, rfl⟩ |
    ⟨rest, _, rfl⟩
  case inl => exact (h.withInputs rest).exec he
  case inr.inl => exact (h.withInputs rest).raise .illegal
  case inr.inr.inl =>
    obtain ⟨hl, hw⟩ := h.pendingShort got hp
    exact h.drawEntropy hl hw
  case inr.inr.inr => exact (h.withInputs rest).applyReset

end

/-! ### Frames -/

/-- Only SELFSEED touches the entropy port (R146), and every other command gives exactly one response (R60). -/
theorem exec_frame_of_ne_selfseed {i : Instr} {s t : State} (hi : i ≠ .selfseed) (h : exec i s = .next t) :
    t.pending = s.pending ∧ t.inputs = s.inputs ∧ ∃ r, t.responses = s.responses ++ [r] := by
  cases i with
  | next =>
    rcases execNext_cases h with ⟨_, rfl⟩ | ⟨_, c, s0, s1, _, _, _, rfl⟩
    · simp
    · simp
  | seed d =>
    rcases execSeed_cases h with ⟨_, rfl⟩ | ⟨_, rfl⟩
    · simp
    · simp
  | setseed d =>
    rcases execSetseed_cases h with ⟨_, _, rfl⟩ | ⟨_, _, rfl⟩ | ⟨_, rfl⟩
    · simp
    · simp
    · simp
  | selfseed => exact absurd rfl hi
  | getstate =>
    rcases execGetstate_cases h with ⟨_, ws, _, rfl⟩ | ⟨_, rfl⟩
    · simp
    · simp

theorem execSeed_S {d : List Word} {s t : State} (h : execSeed d s = .next t) :
    t.S = s.S ∨ ∀ j : Fin 16, t.S[j] = d[j.val]? := by
  rcases execSeed_cases h with ⟨_, rfl⟩ | ⟨_, rfl⟩
  · exact .inr (s.loadArray_getElem d)
  · exact .inl rfl

/-- SETSEED writes the array or nothing, and CUR and SEEDED never (R103, R104). -/
theorem execSetseed_frame {d : List Word} {s t : State} (h : execSetseed d s = .next t) :
    (t.S = s.S ∨ ∀ j : Fin 16, t.S[j] = d[j.val]?) ∧ t.CUR = s.CUR ∧ t.SEEDED = s.SEEDED := by
  rcases execSetseed_cases h with ⟨_, _, rfl⟩ | ⟨_, _, rfl⟩ | ⟨_, rfl⟩
  · exact ⟨.inr (s.loadArray_getElem d), by simp, by simp⟩
  · exact ⟨.inl rfl, rfl, rfl⟩
  · exact ⟨.inl rfl, rfl, rfl⟩

/-- GETSTATE writes none of the engine's state (R121). -/
theorem execGetstate_frame {s t : State} (h : execGetstate s = .next t) :
    t.S = s.S ∧ t.CUR = s.CUR ∧ t.SEEDED = s.SEEDED := by
  rcases execGetstate_cases h with ⟨_, ws, _, rfl⟩ | ⟨_, rfl⟩
  · exact ⟨rfl, rfl, rfl⟩
  · exact ⟨rfl, rfl, rfl⟩

/-! ### Who writes CUR and SEEDED -/

theorem execNext_SEEDED {s t : State} (h : execNext s = .next t) : t.SEEDED = s.SEEDED := by
  rcases execNext_cases h with ⟨_, rfl⟩ | ⟨_, c, s0, s1, _, _, _, rfl⟩
  · rfl
  · rfl

theorem execNext_CUR_of_seeded {s t : State} (hs : s.SEEDED = true) (h : execNext s = .next t) :
    ∃ c, s.CUR = some c ∧ t.CUR = some (c + 1) := by
  rcases execNext_cases h with ⟨hs', _⟩ | ⟨_, c, s0, s1, hc, _, _, rfl⟩
  · rw [hs] at hs'
    cases hs'
  · exact ⟨c, hc, rfl⟩

/-- SEED of sixteen words leaves cursor 0 on a seeded engine (R100). -/
theorem execSeed_CUR_SEEDED {d : List Word} {s t : State} (hd : d.length = 16) (h : execSeed d s = .next t) :
    t.CUR = some 0 ∧ t.SEEDED = true := by
  rcases execSeed_cases h with ⟨_, rfl⟩ | ⟨hn, _⟩
  · exact ⟨rfl, rfl⟩
  · exact absurd hd hn

/-- A SELFSEED that answers OK leaves cursor 0 on a seeded engine (R110). -/
theorem execSelfseed_CUR_SEEDED_of_ok {s t : State} (h : execSelfseed s = .next t)
    (hr : t.responses = s.responses ++ [⟨0x00#8, []⟩]) : t.CUR = some 0 ∧ t.SEEDED = true := by
  rcases execSelfseed_cases h with ⟨draws, rest, rfl, _⟩ | ⟨rest, rfl, _⟩ | ⟨draws, rest, rfl, _⟩
  · exact ⟨rfl, rfl⟩
  · simp at hr
  · simp at hr

/-- A SELFSEED that answers ERR_ENTROPY leaves no cursor and an unseeded engine (R134). -/
theorem execSelfseed_CUR_SEEDED_of_errEntropy {s t : State} (h : execSelfseed s = .next t)
    (hr : t.responses = s.responses ++ [⟨0x03#8, []⟩]) : t.CUR = none ∧ t.SEEDED = false := by
  rcases execSelfseed_cases h with ⟨draws, rest, rfl, _⟩ | ⟨rest, rfl, _⟩ | ⟨draws, rest, rfl, _⟩
  · simp at hr
  · exact ⟨rfl, rfl⟩
  · simp at hr

/-- A reset leaves no cursor and an unseeded engine (R160). -/
theorem step_CUR_SEEDED_of_reset {s t : State} {rest : List Input} (hi : s.inputs = .reset :: rest)
    (h : step s = .next t) : t.CUR = none ∧ t.SEEDED = false := by
  rw [step_of_reset hi] at h
  cases h
  exact ⟨rfl, rfl⟩

/-- However the draws end, CUR is kept, 0 or without a value. -/
theorem State.drawEntropy_CUR (s : State) (got : List Draw) :
    (s.drawEntropy got).CUR = s.CUR ∨ (s.drawEntropy got).CUR = some 0 ∨ (s.drawEntropy got).CUR = none := by
  cases h : takeDraws s.entropyWidth got s.inputs with
  | complete draws rest => rw [State.drawEntropy_of_complete h]; exact .inr (.inl rfl)
  | failed rest => rw [State.drawEntropy_of_failed h]; exact .inr (.inr rfl)
  | waiting draws rest => rw [State.drawEntropy_of_waiting h]; exact .inl rfl

/-- R26 for one command. -/
theorem exec_CUR {i : Instr} {s t : State} (h : exec i s = .next t) :
    t.CUR = s.CUR ∨ t.CUR = s.CUR.map (· + 1) ∨ t.CUR = some 0 ∨ t.CUR = none := by
  cases i with
  | next =>
    rcases execNext_cases h with ⟨_, rfl⟩ | ⟨_, c, s0, s1, hc, _, _, rfl⟩
    · exact .inl rfl
    · exact .inr (.inl (by rw [hc]; rfl))
  | seed d =>
    rcases execSeed_cases h with ⟨_, rfl⟩ | ⟨_, rfl⟩
    · exact .inr (.inr (.inl rfl))
    · exact .inl rfl
  | setseed d => exact .inl (execSetseed_frame h).2.1
  | selfseed =>
    cases h
    exact (s.drawEntropy_CUR []).imp_right .inr
  | getstate => exact .inl (execGetstate_frame h).2.1

/-! ### Placing a command -/

theorem decode_commandOfBits_of_decodeTableWord {nbits w : Nat} {i : Instr} (h : decodeTableWord nbits w = some i) :
    decode (commandOfBits nbits w) = .ok i := by
  unfold decodeTableWord at h
  split at h
  · cases h
    assumption
  · cases h

/-! ### The statements -/

/-- Settles O40: each operation a step is made of keeps the invariant. -/
theorem everyStepKeepsTheInvariant : Obligations.EveryStepKeepsTheInvariant := fun _ _ h ht => h.step ht

/-- Settles O20, from the frame of each of the three commands. -/
theorem seedingFrame : Obligations.SeedingFrame := by
  intro d i s t hi h
  have hne : i ≠ .selfseed := by rintro rfl; simp at hi
  obtain ⟨hp, hin, hr⟩ := exec_frame_of_ne_selfseed hne h
  have hw := exec_entropyWidth h
  rcases hi with rfl | rfl | rfl
  · exact ⟨execSeed_S h, nofun, fun hn => absurd rfl (hn d), hp, hw, hin, hr⟩
  · obtain ⟨hS, hCF⟩ := execSetseed_frame h
    exact ⟨hS, nofun, fun _ => hCF, hp, hw, hin, hr⟩
  · obtain ⟨hS, hCF⟩ := execGetstate_frame h
    exact ⟨.inl hS, fun _ => hS, fun _ => hCF, hp, hw, hin, hr⟩

/-- Settles O29: of the three ends of a SELFSEED only the wait has a draw list and only the other two answer. -/
theorem selfseedFrame : Obligations.SelfseedFrame := by
  intro s t h
  refine ⟨exec_entropyWidth h, ?_⟩
  rcases execSelfseed_cases h with ⟨draws, rest, rfl, hi⟩ | ⟨rest, rfl, hi⟩ | ⟨draws, rest, rfl, hi⟩
  · exact ⟨hi, fun hp => absurd rfl hp, fun _ => ⟨_, s.selfseeded_responses draws rest⟩⟩
  · exact ⟨hi, fun hp => absurd rfl hp, fun _ => ⟨_, rfl⟩⟩
  · exact ⟨hi, fun _ => ⟨rfl, rfl, rfl, rfl⟩, nofun⟩

/-- Settles O42, row by row of R25's table. -/
theorem cursorIsWrittenAsTabled : Obligations.CursorIsWrittenAsTabled :=
  ⟨fun _ _ => execNext_CUR_of_seeded,
    fun _ _ _ hd h => (execSeed_CUR_SEEDED hd h).1,
    fun _ _ h hr => (execSelfseed_CUR_SEEDED_of_ok h hr).1,
    fun _ _ h hr => (execSelfseed_CUR_SEEDED_of_errEntropy h hr).1,
    fun _ _ _ hi h => (step_CUR_SEEDED_of_reset hi h).1,
    fun _ _ _ h => (execSetseed_frame h).2.1,
    fun _ _ h => (execGetstate_frame h).2.1⟩

/-- Settles O43: a step is a command, an illegal one, draws or a reset, and none takes CUR from the host. -/
theorem hostCannotChooseTheCursor : Obligations.HostCannotChooseTheCursor := by
  intro s t h
  rcases step_cases h with ⟨_, _, _, _, _, _, he⟩ | ⟨_, _, _, _, _, _, rfl⟩ | ⟨got, _, _, _, _, rfl⟩ | ⟨_, _, rfl⟩
  case inl => simpa using exec_CUR he
  case inr.inl => exact .inl rfl
  case inr.inr.inl => exact (s.drawEntropy_CUR got).imp_right .inr
  case inr.inr.inr => exact .inr (.inr (.inr rfl))

/-- Settles O44, from what each command and the reset input leave in SEEDED. -/
theorem seededFlagIsWrittenAsTabled : Obligations.SeededFlagIsWrittenAsTabled := by
  refine ⟨fun _ _ _ hd h => (execSeed_CUR_SEEDED hd h).2,
    fun _ _ h => ⟨fun hr => (execSelfseed_CUR_SEEDED_of_ok h hr).2,
      fun hr => (execSelfseed_CUR_SEEDED_of_errEntropy h hr).2⟩,
    fun _ _ _ hi h => (step_CUR_SEEDED_of_reset hi h).2, fun i s t hc h => ?_⟩
  cases i with
  | next => exact execNext_SEEDED h
  | seed d => cases hc
  | setseed d => exact (execSetseed_frame h).2.2
  | selfseed => cases hc
  | getstate => exact (execGetstate_frame h).2.2

/-- Settles O6: an idle engine takes the command from its inputs and runs what it decodes to. -/
theorem stepRunsTheDecodedCommand : Obligations.StepRunsTheDecodedCommand :=
  fun _ _ _ _ hp hi hd => step_of_command hp hi hd

/-- Settles O7: `withFetchWord` makes the engine idle with the command next, so the step is that of O6. -/
theorem placedWordRunsNext : Obligations.PlacedWordRunsNext :=
  fun s nbits w _ h => stepRunsTheDecodedCommand (s.withFetchWord nbits w) (commandOfBits nbits w) s.inputs _
    rfl rfl (decode_commandOfBits_of_decodeTableWord h)

/-- Settles O37. -/
theorem resetHoldsNoValue : Obligations.ResetHoldsNoValue := ⟨rfl, rfl, State.reset_getElem⟩

/-- Settles O39: at reset there is no value, no SELFSEED in progress and no response. -/
theorem invariantHoldsAtReset : Obligations.InvariantHoldsAtReset :=
  ⟨.of_unseeded rfl rfl State.reset_getElem, .of_none rfl, nofun⟩

end Sys2Proof.Machine
end

section
/-! PROOFS. The data the engine takes in (spec/20_memory.md): payloads given twice or of a wrong length, the bits each
draw fills, draws the port does not admit, and a second host. -/

namespace Sys2Proof.Machine

/-! ### Payloads given twice -/

theorem execSeed_twice {d : List Word} {s t u : State} (ht : execSeed d s = .next t) (hu : execSeed d t = .next u) :
    u.S = t.S ∧ u.CUR = t.CUR ∧ u.SEEDED = t.SEEDED := by
  rcases execSeed_cases hu with ⟨hd, rfl⟩ | ⟨_, rfl⟩
  · rw [execSeed_of_sixteen hd] at ht
    cases ht
    exact ⟨rfl, rfl, rfl⟩
  · exact ⟨rfl, rfl, rfl⟩

/-- SETSEED leaves SEEDED alone (R103), so a second one that loads the array finds it loaded by the first. -/
theorem execSetseed_twice_S {d : List Word} {s t u : State} (ht : execSetseed d s = .next t)
    (hu : execSetseed d t = .next u) : u.S = t.S := by
  rcases execSetseed_cases hu with ⟨hd, hts, rfl⟩ | ⟨_, _, rfl⟩ | ⟨_, rfl⟩
  · obtain ⟨_, _, hF⟩ := execSetseed_frame ht
    rw [execSetseed_of_seeded hd (hF ▸ hts)] at ht
    cases ht
    rfl
  · rfl
  · rfl

/-! ### The bits of a draw in its word (R112 to R114) -/

/-- The low chunk of a word holds the value that was put there, whatever is shifted in above it. -/
theorem extractLsb'_low_or_shiftLeft {n : Nat} (hn : n ≤ 64) (e : BitVec n) (hi : Word) :
    (e.setWidth 64 ||| hi <<< n).extractLsb' 0 n = e := by
  apply BitVec.eq_of_getLsbD_eq
  intro b hb
  simp [hb, show b < 64 by omega]

/-- A chunk above the low one is the chunk one place lower of what was shifted in. -/
theorem extractLsb'_succ_or_shiftLeft {n k : Nat} (hk : n * (k + 1) + n ≤ 64) (e : BitVec n) (hi : Word) :
    (e.setWidth 64 ||| hi <<< n).extractLsb' (n * (k + 1)) n = hi.extractLsb' (n * k) n := by
  apply BitVec.eq_of_getLsbD_eq
  intro b hb
  rw [Nat.mul_succ] at hk ⊢
  have he : e.getLsbD (n * k + n + b) = false := BitVec.getLsbD_of_ge _ _ (by omega)
  rw [BitVec.getLsbD_extractLsb', BitVec.getLsbD_extractLsb', BitVec.getLsbD_or, BitVec.getLsbD_setWidth, he,
    BitVec.getLsbD_shiftLeft, show n * k + n + b - n = n * k + b by omega]
  simp [show n * k + n + b < 64 by omega, show ¬ n * k + n + b < n by omega]

theorem extractLsb'_setWidth {n : Nat} (hn : n ≤ 64) (e : BitVec n) : (e.setWidth 64).extractLsb' 0 n = e := by
  simpa using extractLsb'_low_or_shiftLeft hn e 0#64

/-- The loop of R114 started one chunk higher is the same word shifted by one chunk. -/
theorem assemble16_succ (k : Nat) (es : List Word) : assemble16 (k + 1) es = assemble16 k es <<< 16 := by
  induction es generalizing k with
  | nil => simp [assemble16]
  | cons e es ih =>
    rw [assemble16, assemble16, ih (k + 1), BitVec.shiftLeft_or_distrib, Nat.mul_succ, BitVec.shiftLeft_add]

theorem assemble16_cons (e : BitVec 16) (es : List Word) :
    assemble16 0 (e.setWidth 64 :: es) = e.setWidth 64 ||| assemble16 0 es <<< 16 := by
  rw [assemble16, assemble16_succ, setWidth_and_mask (by decide) e (by decide), Nat.mul_zero, BitVec.shiftLeft_zero]

theorem assemble16_chunk {es : List (BitVec 16)} {k : Nat} (hk : k < es.length) (h4 : k < 4) :
    (assemble16 0 (es.map (BitVec.setWidth 64))).extractLsb' (16 * k) 16 = es[k] := by
  induction es generalizing k with
  | nil => cases hk
  | cons e es ih =>
    rw [List.map_cons, assemble16_cons]
    cases k with
    | zero => exact extractLsb'_low_or_shiftLeft (by decide) e _
    | succ k =>
      rw [extractLsb'_succ_or_shiftLeft (by omega)]
      exact ih (by simpa using hk) (by omega)

theorem assemble32_eq (a b : BitVec 32) :
    assemble .w32 [a.setWidth 64, b.setWidth 64] = a.setWidth 64 ||| b.setWidth 64 <<< 32 := by
  rw [assemble, setWidth_and_mask (by decide) a (by decide)]

/-- Draw `k` of a word is the word's chunk `k`, for each width. -/
theorem assemble_chunk (w : EntropyWidth) (es : List (BitVec w.bits)) (hl : es.length = 64 / w.bits) {k : Nat}
    (hk : k < es.length) :
    (assemble w (es.map (BitVec.setWidth 64))).extractLsb' (w.bits * k) w.bits = es[k] := by
  cases w with
  | w16 => exact assemble16_chunk hk (hk.trans_eq hl)
  | w32 =>
    obtain ⟨a, b, rfl⟩ := List.length_eq_two.mp hl
    refine (congrArg (BitVec.extractLsb' (32 * k) 32) (assemble32_eq a b)).trans ?_
    match k, hk with
    | 0, _ => exact extractLsb'_low_or_shiftLeft (by decide) a _
    | 1, _ => exact (extractLsb'_succ_or_shiftLeft (k := 0) (by decide) a _).trans (extractLsb'_setWidth (by decide) b)
  | w64 =>
    obtain ⟨e, rfl⟩ := List.length_eq_one_iff.mp hl
    match k, hk with
    | 0, _ => exact extractLsb'_setWidth (by decide) e

/-- Word `i` of the array is assembled from the `i`-th group of draws (R111). -/
theorem assembleArray_getElem? (w : EntropyWidth) (draws : List (BitVec w.bits)) {i : Nat} (hi : i < 16) :
    (assembleArray w (draws.map (Draw.mk w)))[i]? =
      some (assemble w (((draws.drop (i * (64 / w.bits))).take (64 / w.bits)).map (BitVec.setWidth 64))) := by
  have hz : Draw.zext ∘ Draw.mk w = BitVec.setWidth 64 := rfl
  simp [assembleArray, hi, drawsPerWord_eq, hz]

/-! ### Draws of another width -/

/-- A SELFSEED that is answered with a draw of another width waits with the draws before it. -/
theorem execSelfseed_of_unadmitted {s : State} {draws : List (BitVec s.entropyWidth.bits)} {d : Draw}
    {rest : List Input} (hl : draws.length < totalDraws s.entropyWidth)
    (hd : (EntropyAnswer.ok d).admitted s.entropyWidth = false)
    (hi : s.inputs = answers s.entropyWidth draws ++ .entropy (.ok d) :: rest) :
    execSelfseed s = .next ((s.withInputs (.entropy (.ok d) :: rest)).withPending
      (some (draws.map (Draw.mk s.entropyWidth)))) := by
  have ht : takeDraws s.entropyWidth [] s.inputs =
      .waiting (draws.map (Draw.mk s.entropyWidth)) (.entropy (.ok d) :: rest) := by
    rw [hi, takeDraws_answers draws [] _ (by simpa using hl), List.nil_append]
    exact takeDraws_no_answer hd
  rw [execSelfseed, State.drawEntropy_of_waiting ht]

/-! ### A refusal in a run of several engines -/

theorem stepEngines_cons_of_refused {k : Nat} {p : Platform} {r : Refusal} (h : stepEngine k p = .refused r)
    (ks : List Nat) : stepEngines (k :: ks) p = .refused r := by simp only [stepEngines, h]

/-! ### The statements -/

/-- Settles O21: only S, CUR and SEEDED could change, and a second load of the payload finds it loaded. -/
theorem seedingTwiceIsSeedingOnce : Obligations.SeedingTwiceIsSeedingOnce := by
  intro d i s t u hi ht hu
  have hne : i ≠ .selfseed := by rintro rfl; simp at hi
  obtain ⟨hp, hin, _⟩ := exec_frame_of_ne_selfseed hne hu
  have hw := exec_entropyWidth hu
  rcases hi with rfl | rfl
  · obtain ⟨hS, hC, hF⟩ := execSeed_twice ht hu
    exact ⟨hS, hC, hF, hp, hin, hw⟩
  · obtain ⟨_, hC, hF⟩ := execSetseed_frame hu
    exact ⟨execSetseed_twice_S ht hu, hC, hF, hp, hin, hw⟩

/-- Settles O30: draw `i * (64 / ENTROPY_WIDTH) + k` of all is draw `k` of group `i`, which fills its chunk. -/
theorem eachDrawFillsItsOwnBits : Obligations.EachDrawFillsItsOwnBits := by
  intro w draws hl i k hi hk
  refine ⟨_, assembleArray_getElem? w draws hi, ?_⟩
  have hg : ((draws.drop (i * (64 / w.bits))).take (64 / w.bits)).length = 64 / w.bits := by
    have : (i + 1) * (64 / w.bits) ≤ 16 * (64 / w.bits) := Nat.mul_le_mul_right _ hi
    rw [Nat.succ_mul] at this
    rw [List.length_take, List.length_drop]
    omega
  rw [assemble_chunk w _ hg (hk.trans_eq hg.symm), ← List.getElem?_eq_getElem, List.getElem?_take_of_lt hk,
    List.getElem?_drop]

/-- Settles O31: the draw that is not taken stays next, and the port refuses it there. -/
theorem drawsOfAnotherWidthAreNotAdmitted : Obligations.DrawsOfAnotherWidthAreNotAdmitted := by
  intro s draws d rest hl hd hi
  have ha : (EntropyAnswer.ok d).admitted s.entropyWidth = false := by rwa [Bool.eq_false_iff, Ne, admitted_ok]
  exact ⟨execSelfseed_of_unadmitted (by rwa [totalDraws_eq]) ha hi, step_of_unadmitted rfl rfl ha⟩

/-- Settles O50: the run reaches the engine's turn, and the refusal of its step refuses the rest. -/
theorem secondHostRefusesTheWholeRun : Obligations.SecondHostRefusesTheWholeRun := by
  intro before after p q k s c rest hb hk hi
  rw [stepEngines_append_of_next hb]
  exact stepEngines_cons_of_refused (stepEngine_of_refused hk (turn_of_refused (step_of_secondHost hi))) after

/-- Settles O18: both meanings check the payload's length before anything else. -/
theorem wrongPayloadLengthIsIllegal : Obligations.WrongPayloadLengthIsIllegal :=
  fun _ s hd => ⟨execSeed_of_wrong hd s, execSetseed_of_wrong hd s⟩

end Sys2Proof.Machine
end

section
/-! PROOFS. The encoding (spec/30_encoding.md): the decoder and the encoder are inverse to each other, also through
the one-number layout, and what the engine does with a command that does not decode. -/

namespace Sys2Proof

/-! ### Instructions and their operation and payload -/

theorem Instr.wellFormed_iff (i : Instr) : i.wellFormed = true ↔ i.payload.length = i.op.paylen := by
  cases i <;> simp [Instr.wellFormed, Instr.payload, Instr.op, Op.paylen]

@[simp] theorem Instr.toInstr_op_payload (i : Instr) : i.op.toInstr i.payload = i := by cases i <;> rfl

@[simp] theorem Op.toInstr_op (op : Op) (d : List Word) : (op.toInstr d).op = op := by cases op <;> rfl

theorem Op.toInstr_payload {op : Op} {d : List Word} (h : d.length = op.paylen) : (op.toInstr d).payload = d := by
  cases op with
  | next => exact (List.length_eq_zero_iff.mp h).symm
  | seed => rfl
  | setseed => rfl
  | selfseed => exact (List.length_eq_zero_iff.mp h).symm
  | getstate => exact (List.length_eq_zero_iff.mp h).symm

/-! ### The decoder and the encoder -/

theorem commandWord_of_ofCode {cmd : BitVec 32} {op : Op} (hr : rsvdField cmd = 0#28)
    (ho : Op.ofCode (opField cmd) = some op) : op.commandWord = cmd := by
  rw [Op.commandWord, Op.code_of_ofCode _ _ ho, ← hr]
  exact (commandWord_of_fields cmd).symm

theorem decode_commandWord {op : Op} {cmd : BitVec 32} {d : List Word} (hc : op.commandWord = cmd)
    (hl : d.length = op.paylen) : decode ⟨cmd, d⟩ = .ok (op.toInstr d) := by
  subst hc
  simp [decode, op.ofCode_code, hl]

/-- The decoder accepts the encodings of the well-formed instructions and nothing else (R62, R66). -/
theorem decode_eq_ok_iff {c : Command} {i : Instr} : decode c = .ok i ↔ i.wellFormed = true ∧ encode i = c := by
  constructor
  · intro h
    rcases decode_cases c with ⟨he, _⟩ | ⟨he, _⟩ | ⟨_, he, _⟩ | ⟨op, he, hr, ho, hl⟩
    case inr.inr.inr =>
      obtain rfl : op.toInstr c.payload = i := by rw [he] at h; injection h
      have hp := Op.toInstr_payload hl
      exact ⟨by rwa [Instr.wellFormed_iff, hp, Op.toInstr_op],
        by rw [encode, hp, Op.toInstr_op, commandWord_of_ofCode hr ho]⟩
    all_goals rw [he] at h; cases h
  · rintro ⟨hw, rfl⟩
    exact (decode_commandWord rfl (i.wellFormed_iff.mp hw)).trans (congrArg Except.ok i.toInstr_op_payload)

theorem decode_encode {i : Instr} (h : i.wellFormed = true) : decode (encode i) = .ok i :=
  decode_eq_ok_iff.mpr ⟨h, rfl⟩

theorem Op.commandWord_mem (op : Op) :
    op.commandWord ∈ [0x00000001#32, 0x00000002#32, 0x00000003#32, 0x00000004#32, 0x00000005#32] := by
  cases op <;> decide

/-! ### The one-number layout (assumption 12) -/

theorem payloadOfBits_bitsOfPayload (d : List Word) : payloadOfBits d.length (bitsOfPayload d) = d := by
  induction d with
  | nil => rfl
  | cons w d ih =>
    have hw := w.isLt
    have hlow : BitVec.ofNat 64 (bitsOfPayload (w :: d)) = w := by
      apply BitVec.eq_of_toNat_eq
      rw [bitsOfPayload_cons, BitVec.toNat_ofNat]
      omega
    have hhigh : bitsOfPayload (w :: d) / 2 ^ 64 = bitsOfPayload d := by rw [bitsOfPayload_cons]; omega
    rw [List.length_cons, payloadOfBits, hlow, hhigh, ih]

theorem Command.bits_lt (c : Command) : c.bits < 2 ^ c.bitLength := by
  have hc := c.cmd.isLt
  have hp := bitsOfPayload_lt c.payload
  rw [Command.bits, Command.bitLength, Nat.pow_add]
  calc c.cmd.toNat + 2 ^ 32 * bitsOfPayload c.payload < 2 ^ 32 * (bitsOfPayload c.payload + 1) := by omega
    _ ≤ _ := Nat.mul_le_mul_left _ hp

/-- A command whose word announces its payload is read back from its number. -/
theorem commandOfBits_bits {c : Command} (h : announcedPaylen c.cmd = c.payload.length) :
    commandOfBits c.bitLength c.bits = c := by
  have hc := c.cmd.isLt
  have hcmd : BitVec.ofNat 32 c.bits = c.cmd := by
    apply BitVec.eq_of_toNat_eq
    rw [Command.bits, BitVec.toNat_ofNat]
    omega
  have hpay : c.bits / 2 ^ 32 = bitsOfPayload c.payload := by rw [Command.bits]; omega
  simp only [commandOfBits, Nat.mod_eq_of_lt c.bits_lt, hcmd, hpay, h, payloadOfBits_bitsOfPayload]

theorem announcedPaylen_encode {i : Instr} (h : i.wellFormed = true) :
    announcedPaylen (encode i).cmd = (encode i).payload.length :=
  (announcedPaylen_commandWord i.op).trans (i.wellFormed_iff.mp h).symm

theorem decodeTableWord_of_decode {nbits w : Nat} {i : Instr} (h : decode (commandOfBits nbits w) = .ok i) :
    decodeTableWord nbits w = some i := by simp only [decodeTableWord, h]

/-! ### The three conditions of R66 -/

theorem Op.ofCode_eq_none_iff (code : BitVec 4) :
    Op.ofCode code = none ↔ code ∉ [0x1#4, 0x2#4, 0x3#4, 0x4#4, 0x5#4] := by
  decide +revert

/-- SEED and SETSEED have sixteen payload words and the others none (R65). -/
theorem Op.paylen_eq (op : Op) : op.paylen = if op.code = 0x2#4 ∨ op.code = 0x3#4 then 16 else 0 := by
  cases op <;> rfl

/-- A command is illegal exactly when its OP is reserved, its RSVD is not zero or its payload length is not its OP's. -/
theorem exists_decode_error_iff (c : Command) : (∃ e, decode c = .error e) ↔
    opField c.cmd ∉ [0x1#4, 0x2#4, 0x3#4, 0x4#4, 0x5#4] ∨ rsvdField c.cmd ≠ 0#28 ∨
      c.payload.length ≠ if opField c.cmd = 0x2#4 ∨ opField c.cmd = 0x3#4 then 16 else 0 := by
  rw [← Op.ofCode_eq_none_iff]
  rcases decode_cases c with ⟨he, hr⟩ | ⟨he, _, ho⟩ | ⟨op, he, _, ho, hl⟩ | ⟨op, he, hr, ho, hl⟩
  · exact iff_of_true ⟨_, he⟩ (.inr (.inl hr))
  · exact iff_of_true ⟨_, he⟩ (.inl ho)
  · rw [Op.paylen_eq, Op.code_of_ofCode _ _ ho] at hl
    exact iff_of_true ⟨_, he⟩ (.inr (.inr hl))
  · rw [Op.paylen_eq, Op.code_of_ofCode _ _ ho] at hl
    refine iff_of_false (by simp [he]) ?_
    rw [ho, hl]
    simp [hr]

end Sys2Proof

namespace Sys2Proof.Machine

/-! ### The statements -/

/-- Settles O1: the encodings of the well-formed instructions are what the decoder accepts. -/
theorem decodeOfEncodeIsTheInstruction : Obligations.DecodeOfEncodeIsTheInstruction := fun _ => decode_encode

/-- Settles O2, by the same characterisation of the commands that decode. -/
theorem encodeOfDecodeIsTheCommand : Obligations.EncodeOfDecodeIsTheCommand := fun _ _ => decode_eq_ok_iff.mp

/-- Settles O3: the number gives the command back, which then decodes to its instruction. -/
theorem bitsOfCommandDecodeToTheInstruction : Obligations.BitsOfCommandDecodeToTheInstruction := by
  intro i h
  apply decodeTableWord_of_decode
  rw [commandOfBits_bits (announcedPaylen_encode h)]
  exact decode_encode h

/-- Settles O4: a command that decodes is the encoding of an instruction, so its word is one of the five. -/
theorem fiveCommandWordsAndNoOther : Obligations.FiveCommandWordsAndNoOther := by
  refine ⟨decode_commandWord (op := .next) (by decide) rfl,
    fun d hd => decode_commandWord (op := .seed) (by decide) hd,
    fun d hd => decode_commandWord (op := .setseed) (by decide) hd,
    decode_commandWord (op := .selfseed) (by decide) rfl,
    decode_commandWord (op := .getstate) (by decide) rfl, fun cmd d hcmd => ?_⟩
  cases h : decode ⟨cmd, d⟩ with
  | error e => exact ⟨e, rfl⟩
  | ok i =>
    obtain ⟨_, he⟩ := decode_eq_ok_iff.mp h
    obtain rfl : i.op.commandWord = cmd := congrArg Command.cmd he
    exact absurd i.op.commandWord_mem hcmd

/-- Settles O5: the three conditions are those under which the decoder refuses. -/
theorem illegalCommandsAreAnsweredAndChangeNothing : Obligations.IllegalCommandsAreAnsweredAndChangeNothing := by
  intro s c rest hp hi op paylen
  split_ifs with hc
  · obtain ⟨e, he⟩ := (exists_decode_error_iff c).mpr hc
    exact step_of_illegal hp hi he
  · cases hd : decode c with
    | error e => exact absurd ((exists_decode_error_iff c).mp ⟨e, hd⟩) hc
    | ok i => exact ⟨i, rfl, step_of_command hp hi hd⟩

end Sys2Proof.Machine
end

section
/-! PROOFS. What each command answers (R64, R60), and a snapshot resumed at its cursor (R70). -/

namespace Sys2Proof.Machine

/-! ### Responses -/

/-- An error's response carries its code and no data words (R139). -/
theorem State.raise_responses (s : State) (e : EngineError) :
    ∃ code, code ≠ 0x00#8 ∧ (s.raise e).responses = s.responses ++ [⟨code, []⟩] := by
  cases e <;> exact ⟨_, by decide, rfl⟩

section
variable {s t u : State} {r : Response} {P : Prop}

theorem response_data_of_raise {e : EngineError} (ht : t = u.raise e) (hu : u.responses = s.responses)
    (hr : t.responses = s.responses ++ [r]) : (r.status ≠ 0x00#8 → r.data = []) ∧ (r.status = 0x00#8 → P) := by
  subst ht
  obtain ⟨code, hc, he⟩ := u.raise_responses e
  obtain rfl : ⟨code, []⟩ = r := by simpa [he, hu] using hr
  exact ⟨fun _ => rfl, fun h => absurd h hc⟩

/-- An OK response carries the data words that were answered with it. -/
theorem response_data_of_ok {data : List Word} (ht : t = u.respond .ok data) (hu : u.responses = s.responses)
    (hr : t.responses = s.responses ++ [r]) (hP : r.data = data → P) :
    (r.status ≠ 0x00#8 → r.data = []) ∧ (r.status = 0x00#8 → P) := by
  subst ht
  obtain rfl : ⟨0x00#8, data⟩ = r := by simpa [hu] using hr
  exact ⟨fun h => absurd rfl h, fun _ => hP rfl⟩

end

/-- Settles O35, from the cases of each command: an error has no data, and OK the data its meaning answers. -/
theorem responseDataByCommand : Obligations.ResponseDataByCommand := by
  intro i s t r h hr
  cases i with
  | next =>
    rcases execNext_cases h with ⟨_, ht⟩ | ⟨_, c, s0, s1, _, _, _, ht⟩
    · exact response_data_of_raise ht rfl hr
    · have hw : t.S[c + 1] = some (mix s0 s1) := by rw [ht, State.drawn_getElem, if_pos rfl]
      exact response_data_of_ok (u := (s.writeCur (c + 1)).writeWord (c + 1) _) ht rfl hr fun hd =>
        ⟨c + 1, _, by simp [ht], hw, hd⟩
  | seed d =>
    rcases execSeed_cases h with ⟨_, ht⟩ | ⟨_, ht⟩
    · exact response_data_of_ok ht (s.constructed_responses d) hr id
    · exact response_data_of_raise ht rfl hr
  | setseed d =>
    rcases execSetseed_cases h with ⟨_, _, ht⟩ | ⟨_, _, ht⟩ | ⟨_, ht⟩
    · exact response_data_of_ok ht (s.loadArray_responses d) hr id
    · exact response_data_of_raise ht rfl hr
    · exact response_data_of_raise ht rfl hr
  | selfseed =>
    rcases execSelfseed_cases h with ⟨draws, rest, ht, _⟩ | ⟨rest, ht, _⟩ | ⟨draws, rest, ht, _⟩
    · exact response_data_of_ok (ht.trans (s.selfseeded_eq draws rest)) (State.constructed_responses _ _) hr id
    · exact response_data_of_raise ht rfl hr
    · simp [ht] at hr
  | getstate =>
    rcases execGetstate_cases h with ⟨_, ws, hws, ht⟩ | ⟨_, ht⟩
    · exact response_data_of_ok ht rfl hr fun hd => by rw [hd, ht, State.respond_S, hws]
    · exact response_data_of_raise ht rfl hr

/-- A SELFSEED answers once, or it waits and the port admits nothing of what comes next (R117). -/
theorem State.drawEntropy_answers_or_waits (s : State) :
    ((s.drawEntropy []).pending = none ∧ ∃ r, (s.drawEntropy []).responses = s.responses ++ [r]) ∨
    ((s.drawEntropy []).pending ≠ none ∧ (s.drawEntropy []).responses = s.responses ∧
      startsWithAnswer s.entropyWidth (s.drawEntropy []).inputs = false) := by
  rcases s.drawEntropy_cases [] (totalDraws_pos _) with
    ⟨draws, rest, ht, _, _⟩ | ⟨draws, rest, ht, _, _⟩ | ⟨draws, rest, ht, _, _, hw⟩
  · exact .inl (by simp [ht])
  · exact .inl (by simp [ht])
  · exact .inr (by simp [ht, hw])

/-- Settles O45: an illegal command and every command but SELFSEED answer once, and SELFSEED answers or waits. -/
theorem everyCommandIsAnsweredUnlessItWaitsForEntropy : Obligations.EveryCommandIsAnsweredUnlessItWaitsForEntropy := by
  intro s c rest hv hp hi
  cases hd : decode c with
  | error e => exact ⟨_, step_of_illegal hp hi hd, .inl ⟨hp, _, rfl⟩⟩
  | ok i =>
    obtain ⟨t, ht⟩ := exec_completes (hv.withInputs rest) i
    refine ⟨t, (step_of_command hp hi hd).trans ht, ?_⟩
    by_cases hs : i = .selfseed
    · subst hs
      cases ht
      exact (s.withInputs rest).drawEntropy_answers_or_waits.imp_right fun h => ⟨rfl, h⟩
    · obtain ⟨hpt, _, hr⟩ := exec_frame_of_ne_selfseed hs ht
      exact .inl ⟨hpt.trans hp, hr⟩

/-! ### Engines rotated against each other (R87) -/

theorem State.ValuesAgree.drawn {s : State} (h : s.ValuesAgree) (hs : s.SEEDED = true) (c : Fin 16) (v : Word) :
    (s.drawn c v).ValuesAgree := by
  refine .of_seeded hs rfl fun j => ?_
  rw [State.drawn_getElem]
  split_ifs
  · rfl
  · exact h.words_of_seeded hs j

section
variable {k : Fin 16} {a b : State}

theorem RotatedBy.word_sub (h : RotatedBy k a b) (j : Fin 16) : b.S[j - k] = a.S[j] := by
  simp only [h.words, sub_add_cancel]

theorem RotatedBy.withInputs (h : RotatedBy k a b) (la lb : List Input) :
    RotatedBy k (a.withInputs la) (b.withInputs lb) := ⟨h.words, h.cursor⟩

theorem RotatedBy.drawn (h : RotatedBy k a b) (c : Fin 16) (v : Word) :
    RotatedBy k (a.drawn c v) (b.drawn (c - k) v) where
  words i := by simp only [State.drawn_getElem, h.words, sub_eq_iff_eq_add]
  cursor := rfl

/-- NEXT on engines rotated against each other stores one word, each engine at its own cursor. -/
theorem execNext_rotated (h : RotatedBy k a b) (hv : a.ValuesAgree) (ha : a.SEEDED = true) (hb : b.SEEDED = true) :
    ∃ c v, execNext a = .next (a.drawn c v) ∧ execNext b = .next (b.drawn (c - k) v) := by
  obtain ⟨c, hc⟩ := Option.isSome_iff_exists.mp (hv.cur_of_seeded ha)
  obtain ⟨s0, h0⟩ := Option.isSome_iff_exists.mp (hv.words_of_seeded ha c)
  obtain ⟨s1, h1⟩ := Option.isSome_iff_exists.mp (hv.words_of_seeded ha (c + 1))
  have hcb : b.CUR = some (c - k) := by rw [h.cursor, hc]; rfl
  have h0b : b.S[c - k] = some s0 := (h.word_sub c).trans h0
  have hk : c + 1 - k = c - k + 1 := add_sub_right_comm c 1 k
  have h1b : b.S[c - k + 1] = some s1 := by simpa only [hk] using (h.word_sub (c + 1)).trans h1
  exact ⟨c + 1, mix s0 s1, execNext_of_values ha hc h0 h1, hk ▸ execNext_of_values hb hcb h0b h1b⟩

end

theorem step_of_issued {s : State} {i : Instr} {is : List Instr} {rest : List Input} (hp : s.pending = none)
    (hi : s.inputs = issue (i :: is) ++ rest) (hw : i.wellFormed = true) :
    step s = exec i (s.withInputs (issue is ++ rest)) := step_of_command hp hi (decode_encode hw)

/-- Any number of NEXT commands keep engines rotated against each other and have equal answers, all of them OK. -/
theorem run_nexts_rotated (n : Nat) {k : Fin 16} {a b : State} {restA restB : List Input} (h : RotatedBy k a b)
    (hv : a.ValuesAgree) (ha : a.SEEDED = true) (hb : b.SEEDED = true) (hpa : a.pending = none)
    (hpb : b.pending = none) (hia : a.inputs = issue (expandSkip n) ++ restA)
    (hib : b.inputs = issue (expandSkip n) ++ restB) :
    ∃ (ta tb : State) (out : List Response), a.run n = .next ta ∧ b.run n = .next tb ∧ RotatedBy k ta tb ∧
      out.length = n ∧ (∀ r ∈ out, r.status = 0x00#8) ∧
      ta.responses = a.responses ++ out ∧ tb.responses = b.responses ++ out := by
  induction n generalizing a b with
  | zero => exact ⟨a, b, [], rfl, rfl, h, rfl, nofun, (List.append_nil _).symm, (List.append_nil _).symm⟩
  | succ n ih =>
    have h' := h.withInputs (issue (expandSkip n) ++ restA) (issue (expandSkip n) ++ restB)
    have hv' := hv.withInputs (issue (expandSkip n) ++ restA)
    obtain ⟨c, v, hxa, hxb⟩ := execNext_rotated h' hv' ha hb
    obtain ⟨ta, tb, out, hra, hrb, ht, hlen, hok, hta, htb⟩ :=
      ih (h'.drawn c v) (hv'.drawn ha c v) ha hb hpa hpb rfl rfl
    refine ⟨ta, tb, ⟨0x00#8, [output v]⟩ :: out, ?_, ?_, ht, by simp [hlen], by simpa using hok, by simp [hta],
      by simp [htb]⟩
    · rw [State.run_succ ((step_of_issued hpa hia rfl).trans hxa), hra]
    · rw [State.run_succ ((step_of_issued hpb hib rfl).trans hxb), hrb]

/-! ### RESUME (R70) -/

theorem getElem?_rotate_toList (d : Vector Word 16) (k i : Fin 16) :
    (d.toList.rotate k.val)[i.val]? = some d[i + k] := by
  rw [List.getElem?_rotate (by simp)]
  simp [Fin.val_add]

theorem State.toList_of_values {s : State} {w : Vector Word 16} (h : ∀ i : Fin 16, s.S[i] = some w[i]) :
    s.S.toList = w.toList.map some := by
  have hS : s.S = w.map some := Vector.ext fun i hi => by simpa using h ⟨i, hi⟩
  rw [hS, Vector.toList_map]

/-- SEED of a snapshot rotated left by its cursor constructs the snapshotted engine rotated by that cursor. -/
theorem rotatedBy_constructed {a : State} {c : Fin 16} {w : Vector Word 16} (hc : a.CUR = some c)
    (hw : ∀ i : Fin 16, a.S[i] = some w[i]) (b : State) : RotatedBy c a (b.constructed (w.toList.rotate c.val)) where
  words i := by rw [State.constructed_getElem, getElem?_rotate_toList, hw]
  cursor := by rw [hc, State.constructed_CUR, Option.map_some, sub_self]

/-- Settles O23: the resumed engine is the snapshotted one rotated, so their NEXT commands answer alike. -/
theorem resumeContinuesTheSnapshot : Obligations.ResumeContinuesTheSnapshot := by
  refine ⟨fun k d => ⟨d.toList.rotate k.val, rfl, by simp, getElem?_rotate_toList d k⟩, ?_⟩
  intro m c w a b restA restB hs hc hw hpa hpb hia hib
  let a' := a.withInputs (issue (expandSkip m) ++ restA)
  let b' := b.withInputs (issue (expandSkip m) ++ restB)
  have hga : step a = .next (a'.respond .ok w.toList) :=
    (step_of_issued hpa hia rfl).trans (execGetstate_of_values hs (State.toList_of_values hw))
  have hsb : step b = .next ((b'.constructed (w.toList.rotate c.val)).respond .ok []) :=
    (step_of_issued hpb hib (by simp [Instr.wellFormed])).trans (execSeed_of_sixteen (by simp) b')
  have hrot := rotatedBy_constructed (a := a') hc hw b'
  have hv : a.ValuesAgree := .of_seeded hs (by simp [hc]) fun i => by simp [hw i]
  obtain ⟨ta, tb, out, hra, hrb, _, hlen, hok, hta, htb⟩ := run_nexts_rotated m
    (a := a'.respond .ok w.toList) (b := (b'.constructed (w.toList.rotate c.val)).respond .ok [])
    ⟨hrot.words, hrot.cursor⟩ (hv.of_eq rfl rfl rfl) hs rfl hpa hpb rfl rfl
  refine ⟨ta, tb, out, ?_, ?_, hlen, hok, by simpa [a'] using hta, by simpa [b'] using htb⟩
  · rw [State.run_succ hga, hra]
  · rw [State.run_succ hsb, hrb]

end Sys2Proof.Machine
end

section
/-! PROOFS. The textual form (R68 to R71): what each operand reader accepts and refuses, and what each line
stands for. -/

namespace Sys2Proof.Machine

/-! ### The operand readers -/

theorem payloadLiteral_eq_ok_iff {o : List Char} {w : Word} :
    payloadLiteral o = .ok w ↔ ∃ n, literal o = .ok n ∧ n < 2 ^ 64 ∧ w = BitVec.ofNat 64 n := by
  unfold payloadLiteral
  cases literal o with
  | error e => simp
  | ok n =>
    simp only [Except.ok.injEq, exists_eq_left']
    split_ifs with hn
    · simp only [Except.ok.injEq, hn, true_and, eq_comm]
    · simp only [hn, false_and]

theorem payloadLiterals_eq_ok_iff {ops : List (List Char)} {d : List Word} :
    payloadLiterals ops = .ok d ↔ List.Forall₂ (fun o w => payloadLiteral o = .ok w) ops d := by
  induction ops generalizing d with
  | nil => simp [payloadLiterals, eq_comm]
  | cons o os ih =>
    rw [List.forall₂_cons_left_iff]
    simp only [← ih]
    cases ho : payloadLiteral o with
    | error e => simp [payloadLiterals, ho]
    | ok w =>
      cases hos : payloadLiterals os with
      | error e => simp [payloadLiterals, ho, hos]
      | ok ws => simp [payloadLiterals, ho, hos, eq_comm]

/-- The sixteen payload words are read exactly where the operands are sixteen literals below 2^64 (R68). -/
theorem sixteenWords_eq_ok_iff {ops : List (List Char)} {d : List Word} : sixteenWords ops = .ok d ↔ ReadsAs ops d := by
  unfold sixteenWords
  by_cases hl : ops.length = 16
  · rw [if_pos hl, payloadLiterals_eq_ok_iff, List.forall₂_iff_get]
    simp only [payloadLiteral_eq_ok_iff]
    constructor
    · rintro ⟨hd, hw⟩
      refine ⟨hl, hd ▸ hl, fun j hj => ?_⟩
      obtain ⟨n, hn, hlt, hj'⟩ := hw j (by omega) (by omega)
      exact ⟨ops[j], n, by simp, hn, hlt, by simp [← hj']⟩
    · rintro ⟨_, hd, hw⟩
      refine ⟨by omega, fun j hj hj' => ?_⟩
      obtain ⟨o, n, ho, hn, hlt, hj''⟩ := hw j (by omega)
      obtain ⟨_, rfl⟩ := List.getElem?_eq_some_iff.mp ho
      obtain ⟨_, hw'⟩ := List.getElem?_eq_some_iff.mp hj''
      exact ⟨n, hn, hlt, hw'⟩
  · rw [if_neg hl]
    exact iff_of_false nofun fun h => hl h.operands_sixteen

theorem sixteenWords_of_count {ops : List (List Char)} (h : ops.length ≠ 16) :
    sixteenWords ops = .error .operandCount := if_neg h

section
variable {is : List Instr} {ops : List (List Char)}

theorem noOperands_eq_ok_iff {i : Instr} : noOperands i ops = .ok is ↔ ops = [] ∧ is = [i] := by
  cases ops <;> simp [noOperands, eq_comm]

theorem noOperands_of_count {i : Instr} (h : ops.length ≠ 0) : noOperands i ops = .error .operandCount := if_neg h

theorem seedOperands_eq_ok_iff {mk : List Word → Instr} :
    seedOperands mk ops = .ok is ↔ ∃ d, ReadsAs ops d ∧ is = [mk d] := by
  simp only [← sixteenWords_eq_ok_iff, seedOperands]
  cases sixteenWords ops <;> simp [eq_comm]

theorem seedOperands_of_count {mk : List Word → Instr} (h : ops.length ≠ 16) :
    seedOperands mk ops = .error .operandCount := by simp only [seedOperands, sixteenWords_of_count h]

theorem assembleSkip_eq_ok_iff :
    assembleSkip ops = .ok is ↔ ∃ o n, ops = [o] ∧ literal o = .ok n ∧ is = expandSkip n := by
  match ops with
  | [] => simp [assembleSkip]
  | [o] => cases h : literal o <;> simp [assembleSkip, h, eq_comm]
  | o :: o' :: os => simp [assembleSkip]

theorem assembleSkip_of_count (h : ops.length ≠ 1) : assembleSkip ops = .error .operandCount := by
  match ops with
  | [] => rfl
  | [o] => exact absurd rfl h
  | o :: o' :: os => rfl

theorem assembleResume_eq_ok_iff : assembleResume ops = .ok is ↔
    ∃ (o : List Char) (os : List (List Char)) (k : Fin 16) (d : List Word),
      ops = o :: os ∧ literal o = .ok k.val ∧ ReadsAs os d ∧ is = expandResume k d := by
  simp only [← sixteenWords_eq_ok_iff]
  constructor
  · intro h
    unfold assembleResume at h
    split at h
    · cases h
    · next o os =>
      split at h
      · next d k hd hk =>
        split_ifs at h with hlt
        cases h
        exact ⟨o, os, ⟨k, hlt⟩, d, rfl, hk, hd, rfl⟩
      · cases h
      · cases h
  · rintro ⟨o, os, k, d, rfl, hk, hd, rfl⟩
    simp only [assembleResume, hd, hk, k.isLt, dif_pos]

theorem assembleResume_of_count (h : ops.length ≠ 17) : assembleResume ops = .error .operandCount := by
  match ops with
  | [] => rfl
  | o :: os => simp only [assembleResume, sixteenWords_of_count (ops := os) (by simpa using h)]

end

/-- Settles O53, from what each reader refuses and what SEED's accepts. -/
theorem operandCountsAreCheckedAndNothingIsPadded : Obligations.OperandCountsAreCheckedAndNothingIsPadded := by
  refine ⟨fun _ _ => seedOperands_of_count, fun _ => assembleResume_of_count, fun _ => assembleSkip_of_count,
    fun mk ops is h => ?_⟩
  obtain ⟨d, hd, his⟩ := seedOperands_eq_ok_iff.mp h
  exact ⟨d, his, hd.words_sixteen, hd.word_of_operand⟩

/-! ### Lines -/

section
variable {line : List Char}

theorem assembleChars_of_blank (h : lineMnemonic line = []) : assembleChars line = .ok [] := by
  simp [assembleChars, h]

theorem assembleChars_of_next (h : lineMnemonic line = "NEXT".toList) :
    assembleChars line = noOperands .next (lineOperands line) := by simp [assembleChars, h]

theorem assembleChars_of_seed (h : lineMnemonic line = "SEED".toList) :
    assembleChars line = seedOperands .seed (lineOperands line) := by simp [assembleChars, h]

theorem assembleChars_of_setseed (h : lineMnemonic line = "SETSEED".toList) :
    assembleChars line = seedOperands .setseed (lineOperands line) := by simp [assembleChars, h]

theorem assembleChars_of_selfseed (h : lineMnemonic line = "SELFSEED".toList) :
    assembleChars line = noOperands .selfseed (lineOperands line) := by simp [assembleChars, h]

theorem assembleChars_of_getstate (h : lineMnemonic line = "GETSTATE".toList) :
    assembleChars line = noOperands .getstate (lineOperands line) := by simp [assembleChars, h]

theorem assembleChars_of_skip (h : lineMnemonic line = "SKIP".toList) :
    assembleChars line = assembleSkip (lineOperands line) := by simp [assembleChars, h]

theorem assembleChars_of_resume (h : lineMnemonic line = "RESUME".toList) :
    assembleChars line = assembleResume (lineOperands line) := by simp [assembleChars, h]

/-- Any other mnemonic is refused by name (R68). -/
theorem assembleChars_of_unknown (h0 : lineMnemonic line ≠ [])
    (h : ∀ m ∈ ["NEXT", "SEED", "SETSEED", "SELFSEED", "GETSTATE", "SKIP", "RESUME"], lineMnemonic line ≠ m.toList) :
    assembleChars line = .error .unknownMnemonic := by
  simp only [List.forall_mem_cons] at h
  obtain ⟨h1, h2, h3, h4, h5, h6, h7, _⟩ := h
  simp only [assembleChars, h0, h1, h2, h3, h4, h5, h6, h7, if_false]

end

/-- Settles O54: each mnemonic has its reader, which says what it accepts and how many operands it wants. -/
theorem lineAssemblesExactlyToItsCommands : Obligations.LineAssemblesExactlyToItsCommands := by
  refine ⟨fun line is => ?_, fun line m n hm h hn => ?_, fun line h0 h => assembleChars_of_unknown h0 h⟩
  · by_cases h0 : lineMnemonic line = []
    · simp [assembleChars_of_blank h0, h0, @eq_comm _ [] is]
    by_cases h1 : lineMnemonic line = "NEXT".toList
    · simp [assembleChars_of_next h1, h1, noOperands_eq_ok_iff]
    by_cases h2 : lineMnemonic line = "SEED".toList
    · simp [assembleChars_of_seed h2, h2, seedOperands_eq_ok_iff]
    by_cases h3 : lineMnemonic line = "SETSEED".toList
    · simp [assembleChars_of_setseed h3, h3, seedOperands_eq_ok_iff]
    by_cases h4 : lineMnemonic line = "SELFSEED".toList
    · simp [assembleChars_of_selfseed h4, h4, noOperands_eq_ok_iff]
    by_cases h5 : lineMnemonic line = "GETSTATE".toList
    · simp [assembleChars_of_getstate h5, h5, noOperands_eq_ok_iff]
    by_cases h6 : lineMnemonic line = "SKIP".toList
    · simp [assembleChars_of_skip h6, h6, assembleSkip_eq_ok_iff]
    by_cases h7 : lineMnemonic line = "RESUME".toList
    · simp [assembleChars_of_resume h7, h7, assembleResume_eq_ok_iff]
    · have hu : ∀ m ∈ ["NEXT", "SEED", "SETSEED", "SELFSEED", "GETSTATE", "SKIP", "RESUME"],
          lineMnemonic line ≠ m.toList := by
        simp only [List.forall_mem_cons]
        exact ⟨h1, h2, h3, h4, h5, h6, h7, nofun⟩
      simp only [assembleChars_of_unknown h0 hu, h0, h1, h2, h3, h4, h5, h6, h7, reduceCtorEq, false_and, or_false]
  · simp only [List.mem_cons, Prod.mk.injEq, List.not_mem_nil, or_false] at hm
    rcases hm with ⟨rfl, rfl⟩ | ⟨rfl, rfl⟩ | ⟨rfl, rfl⟩ | ⟨rfl, rfl⟩ | ⟨rfl, rfl⟩ | ⟨rfl, rfl⟩ | ⟨rfl, rfl⟩
    · exact (assembleChars_of_next h).trans (noOperands_of_count hn)
    · exact (assembleChars_of_seed h).trans (seedOperands_of_count hn)
    · exact (assembleChars_of_setseed h).trans (seedOperands_of_count hn)
    · exact (assembleChars_of_selfseed h).trans (noOperands_of_count hn)
    · exact (assembleChars_of_getstate h).trans (noOperands_of_count hn)
    · exact (assembleChars_of_skip h).trans (assembleSkip_of_count hn)
    · exact (assembleChars_of_resume h).trans (assembleResume_of_count hn)

end Sys2Proof.Machine
end

section
/-! PROOFS. A listing line is read back (R68, R71): the digits of its literals, its blanks, its commas and its
mnemonic. -/

namespace Sys2Proof.Machine

/-! ### Hexadecimal literals -/

theorem digitValue_hexDigit (n : Nat) (h : n < 16) : digitValue (hexDigit n) = some n := by
  decide +revert

theorem digitsValue_append (base acc : Nat) (xs ys : List Char) :
    digitsValue base acc (xs ++ ys) = (digitsValue base acc xs).bind fun a => digitsValue base a ys := by
  induction xs generalizing acc with
  | nil => rfl
  | cons x xs ih =>
    rw [List.cons_append, digitsValue, digitsValue]
    split
    · split_ifs
      · exact ih _
      · rfl
    · rfl

/-- The `n` lowest hexadecimal digits of a value spell its remainder modulo 16 ^ n. -/
theorem digitsValue_hexDigits (n v acc : Nat) :
    digitsValue 16 acc (hexDigits n v) = some (acc * 16 ^ n + v % 16 ^ n) := by
  induction n generalizing v with
  | zero => simp [hexDigits, digitsValue, Nat.mod_one]
  | succ n ih =>
    have hd : v % 16 < 16 := Nat.mod_lt v (by decide)
    rw [hexDigits, digitsValue_append, ih, Option.bind_some, digitsValue, digitValue_hexDigit _ hd]
    have hm : v % 16 ^ (n + 1) = v / 16 % 16 ^ n * 16 + v % 16 := by
      rw [Nat.pow_succ', Nat.mod_mul, Nat.mul_comm, Nat.add_comm]
    simp only [hd, if_true, digitsValue]
    rw [hm, Nat.pow_succ]
    congr 1
    ring

@[simp] theorem length_hexDigits (n v : Nat) : (hexDigits n v).length = n := by
  induction n generalizing v with
  | zero => rfl
  | succ n ih => simp [hexDigits, ih]

theorem literal_hexText {n v : Nat} (h0 : n ≠ 0) (h : v < 16 ^ n) : literal (hexText n v) = .ok v := by
  have hv : digitsValue 16 0 (hexDigits n v) = some v := by
    rw [digitsValue_hexDigits, Nat.zero_mul, Nat.zero_add, Nat.mod_eq_of_lt h]
  match hd : hexDigits n v with
  | [] => exact absurd (by simpa [hd] using (length_hexDigits n v).symm) h0
  | c :: cs => rw [hexText, hd, literal, ← hd, hv]

theorem payloadLiteral_hexText (w : Word) : payloadLiteral (hexText 16 w.toNat) = .ok w :=
  payloadLiteral_eq_ok_iff.mpr ⟨w.toNat, literal_hexText (by decide) w.isLt, w.isLt, by simp⟩

theorem sixteenWords_hexText {d : List Word} (h : d.length = 16) :
    sixteenWords (d.map fun w => hexText 16 w.toNat) = .ok d := by
  rw [sixteenWords, if_pos (by rwa [List.length_map]), payloadLiterals_eq_ok_iff, List.forall₂_map_left_iff,
    List.forall₂_same]
  exact fun w _ => payloadLiteral_hexText w

/-! ### Blanks at the ends of a text -/

/-- A text that neither begins nor ends with a blank. -/
structure NoBlankEnds (cs : List Char) : Prop where
  head : ∀ c ∈ cs.head?, isBlank c = false
  last : ∀ c ∈ cs.getLast?, isBlank c = false

theorem dropWhile_eq_self_of_head {p : Char → Bool} {cs : List Char} (h : ∀ c ∈ cs.head?, p c = false) :
    cs.dropWhile p = cs := by
  cases cs with
  | nil => rfl
  | cons c cs => simp [h c rfl]

theorem NoBlankEnds.trimBlanks_eq {cs : List Char} (h : NoBlankEnds cs) : trimBlanks cs = cs := by
  have hr : cs.reverse.dropWhile isBlank = cs.reverse :=
    dropWhile_eq_self_of_head fun c hc => h.last c (by rwa [List.head?_reverse] at hc)
  rw [trimBlanks, dropWhile_eq_self_of_head h.head, hr, List.reverse_reverse]

theorem NoBlankEnds.append {a b : List Char} (ha : NoBlankEnds a) (hb : NoBlankEnds b) (ha0 : a ≠ []) (hb0 : b ≠ [])
    (m : List Char) : NoBlankEnds (a ++ m ++ b) where
  head c hc := ha.head c (by rwa [List.append_assoc, List.head?_append_of_ne_nil _ ha0] at hc)
  last c hc := hb.last c (by rwa [List.getLast?_append_of_ne_nil _ hb0] at hc)

/-! ### Words of a line -/

/-- A mnemonic or an operand as a listing writes it: not empty, without blanks, commas and semicolons. -/
structure IsToken (cs : List Char) : Prop where
  nonempty : cs ≠ []
  not_blank : ∀ c ∈ cs, isBlank c = false
  no_comma : ',' ∉ cs
  no_semicolon : ';' ∉ cs

theorem IsToken.noBlankEnds {cs : List Char} (h : IsToken cs) : NoBlankEnds cs where
  head c hc := h.not_blank c (List.mem_of_mem_head? hc)
  last c hc := h.not_blank c (List.mem_of_mem_getLast? hc)

theorem hexDigit_not_separator (n : Nat) (h : n < 16) :
    isBlank (hexDigit n) = false ∧ hexDigit n ≠ ',' ∧ hexDigit n ≠ ';' := by
  decide +revert

theorem exists_hexDigit_of_mem_hexDigits {n v : Nat} {c : Char} (h : c ∈ hexDigits n v) : ∃ k < 16, c = hexDigit k := by
  induction n generalizing v with
  | zero => cases h
  | succ n ih =>
    rw [hexDigits, List.mem_append, List.mem_singleton] at h
    rcases h with h | rfl
    · exact ih h
    · exact ⟨_, Nat.mod_lt v (by decide), rfl⟩

theorem mem_hexText_not_separator {n v : Nat} {c : Char} (h : c ∈ hexText n v) :
    isBlank c = false ∧ c ≠ ',' ∧ c ≠ ';' := by
  rw [hexText, List.mem_cons, List.mem_cons] at h
  rcases h with rfl | rfl | h
  · decide
  · decide
  · obtain ⟨k, hk, rfl⟩ := exists_hexDigit_of_mem_hexDigits h
    exact hexDigit_not_separator k hk

theorem isToken_hexText (n v : Nat) : IsToken (hexText n v) where
  nonempty := nofun
  not_blank _ h := (mem_hexText_not_separator h).1
  no_comma h := (mem_hexText_not_separator h).2.1 rfl
  no_semicolon h := (mem_hexText_not_separator h).2.2 rfl

/-! ### Operands joined by commas -/

theorem joinCommas_cons_ne_nil {o : List Char} (h : o ≠ []) (os : List (List Char)) : joinCommas (o :: os) ≠ [] := by
  cases os with
  | nil => exact h
  | cons o' os => simp [joinCommas]

theorem noBlankEnds_joinCommas {o : List Char} {os : List (List Char)} (h : ∀ x ∈ o :: os, IsToken x) :
    NoBlankEnds (joinCommas (o :: os)) := by
  induction os generalizing o with
  | nil => exact (h o (by simp)).noBlankEnds
  | cons o' os ih =>
    rw [List.forall_mem_cons] at h
    obtain ⟨ho, hos⟩ := h
    exact ho.noBlankEnds.append (ih hos) ho.nonempty (joinCommas_cons_ne_nil (hos o' (by simp)).nonempty os) _

theorem splitCommas_cons_of_ne {c : Char} (hc : c ≠ ',') {cs part : List Char} {parts : List (List Char)}
    (h : splitCommas cs = part :: parts) : splitCommas (c :: cs) = (c :: part) :: parts := by
  simp only [splitCommas, beq_eq_false_iff_ne.mpr hc, h]

theorem splitCommas_of_no_comma {o : List Char} (h : ',' ∉ o) : splitCommas o = [o] := by
  induction o with
  | nil => rfl
  | cons c o ih =>
    rw [List.mem_cons, not_or] at h
    exact splitCommas_cons_of_ne (Ne.symm h.1) (ih h.2)

theorem splitCommas_append_comma {o : List Char} (h : ',' ∉ o) (cs : List Char) :
    splitCommas (o ++ ',' :: cs) = o :: splitCommas cs := by
  induction o with
  | nil => rfl
  | cons c o ih =>
    rw [List.mem_cons, not_or] at h
    exact splitCommas_cons_of_ne (Ne.symm h.1) (ih h.2)

/-- The parts between the commas are the operands, each after the first with the blank that a listing puts there. -/
theorem splitCommas_joinCommas {o : List Char} {os : List (List Char)} (h : ∀ x ∈ o :: os, IsToken x) :
    splitCommas (joinCommas (o :: os)) = o :: os.map (' ' :: ·) := by
  induction os generalizing o with
  | nil => exact splitCommas_of_no_comma (h o (by simp)).no_comma
  | cons o' os ih =>
    rw [List.forall_mem_cons] at h
    obtain ⟨ho, hos⟩ := h
    have hj : joinCommas (o :: o' :: os) = o ++ ',' :: ' ' :: joinCommas (o' :: os) := by simp [joinCommas]
    rw [hj, splitCommas_append_comma ho.no_comma, splitCommas_cons_of_ne (by decide) (ih hos), List.map_cons]

theorem operands_of_trimBlanks {cs : List Char} (h : trimBlanks cs ≠ []) :
    operands cs = (splitCommas (trimBlanks cs)).map trimBlanks := by
  unfold operands
  split
  · contradiction
  · next he => rw [he]

theorem operands_joinCommas {o : List Char} {os : List (List Char)} (h : ∀ x ∈ o :: os, IsToken x) :
    operands (' ' :: joinCommas (o :: os)) = o :: os := by
  have ht : trimBlanks (' ' :: joinCommas (o :: os)) = joinCommas (o :: os) := (noBlankEnds_joinCommas h).trimBlanks_eq
  obtain ⟨ho, hos⟩ := List.forall_mem_cons.mp h
  have hne : trimBlanks (' ' :: joinCommas (o :: os)) ≠ [] := by
    rw [ht]
    exact joinCommas_cons_ne_nil ho.nonempty os
  rw [operands_of_trimBlanks hne, ht, splitCommas_joinCommas h, List.map_cons, ho.noBlankEnds.trimBlanks_eq,
    List.map_map]
  exact congrArg (o :: ·) ((List.map_congr_left fun x hx => (hos x hx).noBlankEnds.trimBlanks_eq).trans (List.map_id _))

theorem no_semicolon_joinCommas {os : List (List Char)} (h : ∀ x ∈ os, IsToken x) : ';' ∉ joinCommas os := by
  match os with
  | [] => exact List.not_mem_nil
  | [o] => exact (h o (by simp)).no_semicolon
  | o :: o' :: os =>
    rw [List.forall_mem_cons] at h
    obtain ⟨ho, hos⟩ := h
    simp [joinCommas, ho.no_semicolon, no_semicolon_joinCommas hos]

/-! ### The line of a listing -/

theorem lineText_eq_self {cs : List Char} (hs : ';' ∉ cs) (hb : NoBlankEnds cs) : lineText cs = cs := by
  have hc : stripComment cs = cs :=
    List.takeWhile_eq_self_iff.mpr fun c hc => decide_eq_true fun he : c = ';' => hs (he ▸ hc)
  rw [lineText, hc, hb.trimBlanks_eq]

section
variable {m : List Char} (hm : IsToken m)
include hm

theorem takeWhile_token (cs : List Char) : (m ++ ' ' :: cs).takeWhile (fun c => !isBlank c) = m := by
  rw [List.takeWhile_append_of_pos fun c hc => by simp [hm.not_blank c hc]]
  exact List.append_nil m

theorem dropWhile_token (cs : List Char) : (m ++ ' ' :: cs).dropWhile (fun c => !isBlank c) = ' ' :: cs := by
  rw [List.dropWhile_append_of_pos fun c hc => by simp [hm.not_blank c hc]]
  rfl

theorem lineText_tokens {o : List Char} {os : List (List Char)} (h : ∀ x ∈ o :: os, IsToken x) :
    lineText (m ++ [' '] ++ joinCommas (o :: os)) = m ++ ' ' :: joinCommas (o :: os) := by
  have hne := joinCommas_cons_ne_nil (h o (by simp)).nonempty os
  rw [lineText_eq_self _ (hm.noBlankEnds.append (noBlankEnds_joinCommas h) hm.nonempty hne _)]
  · simp
  · simp [hm.no_semicolon, no_semicolon_joinCommas h]

end

theorem isToken_opMnemonic (op : Op) : IsToken (opMnemonic op).toList := by
  cases op <;> exact ⟨by decide, by simp [opMnemonic, isBlank], by decide, by decide⟩

/-- A listing line is a mnemonic alone, or a mnemonic and operands that are words of a line. -/
theorem assemblyText_cases (i : Instr) :
    (i.payload = [] ∧ assemblyText i = (opMnemonic i.op).toList) ∨
    (∃ o os, (i.payload.map fun w => hexText 16 w.toNat) = o :: os ∧ (∀ x ∈ o :: os, IsToken x) ∧
      assemblyText i = (opMnemonic i.op).toList ++ [' '] ++ joinCommas (o :: os)) := by
  cases hp : i.payload with
  | nil => exact .inl ⟨rfl, by simp only [assemblyText, hp]⟩
  | cons w ws =>
    have ht : ∀ x ∈ (w :: ws).map fun w => hexText 16 w.toNat, IsToken x :=
      List.forall_mem_map.mpr fun w _ => isToken_hexText 16 w.toNat
    exact .inr ⟨_, _, rfl, ht, by simp only [assemblyText, hp]; rfl⟩

theorem lineMnemonic_assemblyText (i : Instr) : lineMnemonic (assemblyText i) = (opMnemonic i.op).toList := by
  have hu : (opMnemonic i.op).toList.map Char.toUpper = (opMnemonic i.op).toList := by cases i.op <;> decide
  have hm := isToken_opMnemonic i.op
  rcases assemblyText_cases i with ⟨_, ht⟩ | ⟨o, os, _, hos, ht⟩
  · rw [lineMnemonic, ht, lineText_eq_self hm.no_semicolon hm.noBlankEnds, List.takeWhile_eq_self_iff.mpr, hu]
    exact fun c hc => by simp [hm.not_blank c hc]
  · rw [lineMnemonic, ht, lineText_tokens hm hos, takeWhile_token hm, hu]

theorem lineOperands_assemblyText (i : Instr) :
    lineOperands (assemblyText i) = i.payload.map fun w => hexText 16 w.toNat := by
  have hm := isToken_opMnemonic i.op
  rcases assemblyText_cases i with ⟨hp, ht⟩ | ⟨o, os, ho, hos, ht⟩
  · rw [lineOperands, ht, lineText_eq_self hm.no_semicolon hm.noBlankEnds, List.dropWhile_eq_nil_iff.mpr, hp]
    · rfl
    · exact fun c hc => by simp [hm.not_blank c hc]
  · rw [lineOperands, ht, lineText_tokens hm hos, dropWhile_token hm, operands_joinCommas hos, ho]

theorem seedOperands_hexText (mk : List Word → Instr) {d : List Word} (h : (d.length == 16) = true) :
    seedOperands mk (d.map fun w => hexText 16 w.toNat) = .ok [mk d] :=
  seedOperands_eq_ok_iff.mpr ⟨d, sixteenWords_eq_ok_iff.mp (sixteenWords_hexText (beq_iff_eq.mp h)), rfl⟩

/-- Settles O52: the line's mnemonic and operands are those of the command, and its reader takes them. -/
theorem listingLineAssemblesToItsCommand : Obligations.ListingLineAssemblesToItsCommand := by
  intro i h
  have hm := lineMnemonic_assemblyText i
  have ho := lineOperands_assemblyText i
  cases i with
  | next => rw [assembleChars_of_next hm, ho]; rfl
  | seed d => rw [assembleChars_of_seed hm, ho]; exact seedOperands_hexText .seed h
  | setseed d => rw [assembleChars_of_setseed hm, ho]; exact seedOperands_hexText .setseed h
  | selfseed => rw [assembleChars_of_selfseed hm, ho]; rfl
  | getstate => rw [assembleChars_of_getstate hm, ho]; rfl

end Sys2Proof.Machine
end

section
/-! PROOFS. NEXT (spec/40_transition.md): what it stores and returns (R80 to R84), determinism (R85), the zero array
(R86), rotated engines (R87), the cursor's count (R88) and the linearity of the stored word (R89). -/

namespace Sys2Proof.Machine

/-! ### The mix -/

/-- R84: the stored word by rearranging XOR. -/
theorem mix_eq_closed_form (s0 s1 : Word) :
    mix s0 s1 =
      (s1 ^^^ (s1 <<< 31)) ^^^ ((s1 ^^^ (s1 <<< 31)) >>> 11) ^^^ s0 ^^^ (s0 >>> 30) := by
  rw [mix_eq, BitVec.xor_comm, BitVec.xor_assoc _ s0]

theorem xor_xor_xor_swap (a b c d : Word) : (a ^^^ b) ^^^ (c ^^^ d) = (a ^^^ c) ^^^ (b ^^^ d) := by ac_rfl

theorem xor_shiftLeft_linear (x y : Word) (n : Nat) :
    (x ^^^ y) ^^^ ((x ^^^ y) <<< n) = (x ^^^ (x <<< n)) ^^^ (y ^^^ (y <<< n)) := by
  rw [BitVec.shiftLeft_xor_distrib, xor_xor_xor_swap]

theorem xor_ushiftRight_linear (x y : Word) (n : Nat) :
    (x ^^^ y) ^^^ ((x ^^^ y) >>> n) = (x ^^^ (x >>> n)) ^^^ (y ^^^ (y >>> n)) := by
  rw [BitVec.ushiftRight_xor_distrib, xor_xor_xor_swap]

/-- R89: each shift of the mix is linear, so the mix is. -/
theorem mix_xor (a0 a1 b0 b1 : Word) : mix (a0 ^^^ b0) (a1 ^^^ b1) = mix a0 a1 ^^^ mix b0 b1 := by
  rw [mix_eq, mix_eq, mix_eq, xor_shiftLeft_linear, xor_ushiftRight_linear, xor_ushiftRight_linear, xor_xor_xor_swap]

/-! ### One NEXT -/

theorem eq_drawn_of_execNext {s t : State} {c : Fin 16} {s0 s1 : Word} (hs : s.SEEDED = true) (hc : s.CUR = some c)
    (h0 : s.S[c] = some s0) (h1 : s.S[c + 1] = some s1) (ht : execNext s = .next t) :
    t = s.drawn (c + 1) (mix s0 s1) := by
  rw [execNext_of_values hs hc h0 h1] at ht
  injection ht with ht
  exact ht.symm

/-- The word NEXT stores stands at the new cursor. -/
theorem stored_of_execNext {s t : State} {c : Fin 16} {s0 s1 : Word} (hs : s.SEEDED = true) (hc : s.CUR = some c)
    (h0 : s.S[c] = some s0) (h1 : s.S[c + 1] = some s1) (ht : execNext s = .next t) :
    t.S[c + 1] = some (mix s0 s1) := by
  rw [eq_drawn_of_execNext hs hc h0 h1 ht, State.drawn_getElem, if_pos rfl]

/-- NEXT on two zero words stores 0 (R86). -/
theorem execNext_of_zeros {s : State} {c : Fin 16} (hs : s.SEEDED = true) (hc : s.CUR = some c)
    (h0 : s.S[c] = some 0#64) (h1 : s.S[c + 1] = some 0#64) : execNext s = .next (s.drawn (c + 1) 0#64) := by
  rw [execNext_of_values hs hc h0 h1, mix_zero]

/-- A command with an operation's code, but reserved bits or a payload length that are not the operation's, is
illegal (R66). -/
theorem answersIllegalForms_op (op : Op) : AnswersIllegalForms op.code op.paylen := by
  intro s c rest hp hi hop hc
  rw [Op.paylen_eq, ← hop] at hc
  obtain ⟨e, he⟩ := (exists_decode_error_iff c).mpr (.inr hc)
  exact step_of_illegal hp hi he

/-- The all-zero array stays all zero, whatever the cursor, and every NEXT answers 0. -/
theorem run_nexts_of_zeros (n : Nat) {s : State} {c : Fin 16} {rest : List Input} (hp : s.pending = none)
    (hs : s.SEEDED = true) (hc : s.CUR = some c) (h0 : ∀ i : Fin 16, s.S[i] = some 0#64)
    (hi : s.inputs = issue (expandSkip n) ++ rest) :
    ∃ t, s.run n = .next t ∧ (∀ i : Fin 16, t.S[i] = some 0#64) ∧
      t.responses = s.responses ++ List.replicate n ⟨0x00#8, [0#64]⟩ := by
  induction n generalizing s c with
  | zero => exact ⟨s, rfl, h0, (List.append_nil _).symm⟩
  | succ n ih =>
    let u := (s.withInputs (issue (expandSkip n) ++ rest)).drawn (c + 1) 0#64
    have hstep : step s = .next u :=
      (step_of_issued hp hi rfl).trans (execNext_of_zeros hs hc (h0 c) (h0 (c + 1)))
    have hu (i : Fin 16) : u.S[i] = some 0#64 := by
      rw [State.drawn_getElem]
      split_ifs
      · rfl
      · exact h0 i
    obtain ⟨t, hrun, ht, hr⟩ := ih (s := u) hp hs rfl hu rfl
    exact ⟨t, (State.run_succ hstep n).trans hrun, ht, by simp [hr, u, List.replicate_succ]⟩

/-! ### Engines with equal S and equal CUR (R85) -/

/-- The engine's own state, S, CUR and SEEDED, is equal; the ports and the build parameter may differ. -/
structure State.SameEngine (a b : State) : Prop where
  words : a.S = b.S
  cursor : a.CUR = b.CUR
  flag : a.SEEDED = b.SEEDED

theorem State.ValuesAgree.SEEDED_eq {s : State} (h : s.ValuesAgree) : s.SEEDED = s.CUR.isSome := by
  cases hs : s.SEEDED with
  | true => exact (h.cur_of_seeded hs).symm
  | false => rw [h.cur_of_unseeded hs]; rfl

/-- Under R22 the flag follows from the cursor. -/
theorem State.SameEngine.of_valuesAgree {a b : State} (ha : a.ValuesAgree) (hb : b.ValuesAgree) (hS : a.S = b.S)
    (hC : a.CUR = b.CUR) : a.SameEngine b := ⟨hS, hC, by rw [ha.SEEDED_eq, hb.SEEDED_eq, hC]⟩

/-- SEED leaves nothing of what differed (R100). -/
theorem State.sameEngine_constructed (a b : State) (d : List Word) :
    (a.constructed d).SameEngine (b.constructed d) where
  words := by simp [State.constructed]
  cursor := rfl
  flag := rfl

section
variable {a b : State} (h : a.SameEngine b)
include h

theorem State.SameEngine.withInputs (la lb : List Input) : (a.withInputs la).SameEngine (b.withInputs lb) :=
  ⟨h.words, h.cursor, h.flag⟩

theorem State.SameEngine.respond (st : Status) (data : List Word) :
    (a.respond st data).SameEngine (b.respond st data) := ⟨h.words, h.cursor, h.flag⟩

theorem State.SameEngine.loadArray (d : List Word) : (a.loadArray d).SameEngine (b.loadArray d) where
  words := by rw [State.loadArray_S, State.loadArray_S]
  cursor := by simpa using h.cursor
  flag := by simpa using h.flag

theorem State.SameEngine.drawn (c : Fin 16) (v : Word) : (a.drawn c v).SameEngine (b.drawn c v) where
  words := by rw [State.drawn_S, State.drawn_S, h.words]
  cursor := rfl
  flag := h.flag

/-- Equal engines that respond alike add one and the same response each. -/
theorem State.SameEngine.exists_response {a₀ b₀ : State} (ha : a.responses = a₀.responses)
    (hb : b.responses = b₀.responses) {st : Status} {data : List Word} {x : Result}
    (hx : x = .next (b.respond st data)) :
    ∃ (tb : State) (r : Response), x = .next tb ∧ (a.respond st data).SameEngine tb ∧
      (a.respond st data).responses = a₀.responses ++ [r] ∧ tb.responses = b₀.responses ++ [r] :=
  ⟨_, ⟨st.code, data⟩, hx, h.respond st data, by rw [State.respond_responses, ha],
    by rw [State.respond_responses, hb]⟩

/-- Every command but SELFSEED takes its answer and its effect from S, CUR and SEEDED alone. -/
theorem exec_sameEngine {i : Instr} (hi : i ≠ .selfseed) {ta : State} (ha : exec i a = .next ta) :
    ∃ (tb : State) (r : Response), exec i b = .next tb ∧ ta.SameEngine tb ∧
      ta.responses = a.responses ++ [r] ∧ tb.responses = b.responses ++ [r] := by
  have ⟨hS, hC, hF⟩ := h
  cases i with
  | next =>
    rcases execNext_cases ha with ⟨hs, rfl⟩ | ⟨hs, c, s0, s1, hc, h0, h1, rfl⟩
    · exact h.exists_response rfl rfl (execNext_of_unseeded (hF ▸ hs))
    · rw [hS] at h0 h1
      exact ⟨_, _, execNext_of_values (hF ▸ hs) (hC ▸ hc) h0 h1, h.drawn _ _, State.drawn_responses _ _ _,
        State.drawn_responses _ _ _⟩
  | seed d =>
    rcases execSeed_cases ha with ⟨hd, rfl⟩ | ⟨hd, rfl⟩
    · exact (a.sameEngine_constructed b d).exists_response (a.constructed_responses d) (b.constructed_responses d)
        (execSeed_of_sixteen hd b)
    · exact h.exists_response rfl rfl (execSeed_of_wrong hd b)
  | setseed d =>
    rcases execSetseed_cases ha with ⟨hd, hs, rfl⟩ | ⟨hd, hs, rfl⟩ | ⟨hd, rfl⟩
    · exact (h.loadArray d).exists_response (a.loadArray_responses d) (b.loadArray_responses d)
        (execSetseed_of_seeded hd (hF ▸ hs))
    · exact h.exists_response rfl rfl (execSetseed_of_unseeded hd (hF ▸ hs))
    · exact h.exists_response rfl rfl (execSetseed_of_wrong hd b)
  | selfseed => exact absurd rfl hi
  | getstate =>
    rcases execGetstate_cases ha with ⟨hs, ws, hw, rfl⟩ | ⟨hs, rfl⟩
    · exact h.exists_response rfl rfl (execGetstate_of_values (hF ▸ hs) (hS ▸ hw))
    · exact h.exists_response rfl rfl (execGetstate_of_unseeded (hF ▸ hs))

end

/-- R22 is kept because it is part of the machine's invariant, which an equal engine without earlier responses meets. -/
theorem State.ValuesAgree.of_exec {i : Instr} (hi : i ≠ .selfseed) {s t : State} (h : s.ValuesAgree)
    (ht : exec i s = .next t) : t.ValuesAgree := by
  let s' : State := { s with pending := none, responses := [] }
  have hinv : s'.Inv := ⟨h.of_eq rfl rfl rfl, .of_none rfl, nofun⟩
  obtain ⟨t', _, ht', heq, _⟩ := exec_sameEngine (a := s) (b := s') ⟨rfl, rfl, rfl⟩ hi ht
  exact (hinv.exec ht').valuesAgree.of_eq heq.words heq.cursor heq.flag

/-! ### Commands in a row at an engine between commands -/

/-- An engine between commands that keeps R22, at whose channel the commands `cmds` stand next. -/
structure State.Takes (cmds : List Command) (rest : List Input) (s : State) : Prop where
  values : s.ValuesAgree
  idle : s.pending = none
  next : s.inputs = cmds.map .command ++ rest

section
variable {c : Command} {cmds : List Command} {rest : List Input} {s t : State}

/-- A command that is no SELFSEED is over when its step is. -/
theorem State.Takes.of_step (h : s.Takes (c :: cmds) rest) (hd : decode c ≠ .ok .selfseed)
    (ht : step s = .next t) : t.Takes cmds rest := by
  obtain ⟨hv, hp, hi⟩ := h
  have hv' := hv.withInputs (cmds.map .command ++ rest)
  cases hc : decode c with
  | error e =>
    rw [step_of_illegal hp hi hc] at ht
    cases ht
    exact ⟨hv'.of_eq rfl rfl rfl, hp, rfl⟩
  | ok i =>
    have hne : i ≠ .selfseed := by rintro rfl; exact hd hc
    rw [step_of_command hp hi hc] at ht
    obtain ⟨hpt, hit, _⟩ := exec_frame_of_ne_selfseed hne ht
    exact ⟨hv'.of_exec hne ht, hpt.trans hp, hit⟩

theorem State.Takes.step_completes (h : s.Takes (c :: cmds) rest) : ∃ t, step s = .next t := by
  obtain ⟨t, ht, _⟩ := everyCommandIsAnsweredUnlessItWaitsForEntropy s c _ h.values h.idle h.next
  exact ⟨t, ht⟩

/-- One step of R85. -/
theorem step_sameEngine {a b ta : State} {restA restB : List Input} (h : a.SameEngine b)
    (ha : a.Takes (c :: cmds) restA) (hb : b.Takes (c :: cmds) restB) (hd : decode c ≠ .ok .selfseed)
    (hta : step a = .next ta) :
    ∃ (tb : State) (r : Response), step b = .next tb ∧ ta.SameEngine tb ∧
      ta.responses = a.responses ++ [r] ∧ tb.responses = b.responses ++ [r] := by
  have h' := h.withInputs (cmds.map .command ++ restA) (cmds.map .command ++ restB)
  cases hc : decode c with
  | error e =>
    rw [step_of_illegal ha.idle ha.next hc] at hta
    cases hta
    exact ⟨_, _, step_of_illegal hb.idle hb.next hc, h'.respond .errIllegal [], rfl, rfl⟩
  | ok i =>
    rw [step_of_command ha.idle ha.next hc] at hta
    rw [step_of_command hb.idle hb.next hc]
    exact exec_sameEngine h' (by rintro rfl; exact hd hc) hta

/-- R85 for any number of commands. -/
theorem run_sameEngine {a b : State} {restA restB : List Input} (h : a.SameEngine b)
    (ha : a.Takes cmds restA) (hb : b.Takes cmds restB) (hd : ∀ c ∈ cmds, decode c ≠ .ok .selfseed) :
    ∃ (ta tb : State) (out : List Response), a.run cmds.length = .next ta ∧ b.run cmds.length = .next tb ∧
      out.length = cmds.length ∧ ta.responses = a.responses ++ out ∧ tb.responses = b.responses ++ out ∧
      ta.SameEngine tb := by
  induction cmds generalizing a b with
  | nil => exact ⟨a, b, [], rfl, rfl, rfl, (List.append_nil _).symm, (List.append_nil _).symm, h⟩
  | cons c cmds ih =>
    obtain ⟨hdc, hds⟩ := List.forall_mem_cons.mp hd
    obtain ⟨ua, hua⟩ := ha.step_completes
    obtain ⟨ub, r, hub, hu, hra, hrb⟩ := step_sameEngine h ha hb hdc hua
    obtain ⟨ta, tb, out, hta, htb, hlen, hoa, hob, ht⟩ := ih hu (ha.of_step hdc hua) (hb.of_step hdc hub) hds
    refine ⟨ta, tb, r :: out, (State.run_succ hua _).trans hta, (State.run_succ hub _).trans htb, ?_, ?_, ?_, ht⟩
    · simp [hlen]
    · simp [hoa, hra]
    · simp [hob, hrb]

/-! ### The cursor's count (R88) -/

@[simp] theorem State.constructed_inputs (s : State) (d : List Word) : (s.constructed d).inputs = s.inputs := by
  simp [State.constructed]

/-- A command that constructs nothing advances the cursor of a seeded engine by one if it is NEXT, and else not. -/
theorem exec_CUR_of_no_construction {i : Instr} {p : Fin 16} (ht : exec i s = .next t) (hi : constructs i = false)
    (hs : s.SEEDED = true) (hp : s.CUR = some p) :
    t.SEEDED = true ∧ t.CUR = some (if i == .next then p + 1 else p) := by
  cases i with
  | next =>
    obtain ⟨q, hq, hq'⟩ := execNext_CUR_of_seeded hs ht
    obtain rfl : p = q := Option.some.inj (hp.symm.trans hq)
    exact ⟨(execNext_SEEDED ht).trans hs, hq'⟩
  | seed d => cases hi
  | setseed d =>
    obtain ⟨_, hcur, hflag⟩ := execSetseed_frame ht
    exact ⟨hflag.trans hs, hcur.trans hp⟩
  | selfseed => cases hi
  | getstate =>
    obtain ⟨_, hcur, hflag⟩ := execGetstate_frame ht
    exact ⟨hflag.trans hs, hcur.trans hp⟩

theorem decodesTo_of_ok {f : Instr → Bool} {i : Instr} (h : decode c = .ok i) : decodesTo f c = f i := by
  simp only [decodesTo, h]

theorem decodesTo_of_error {f : Instr → Bool} {e : Illegal} (h : decode c = .error e) : decodesTo f c = false := by
  simp only [decodesTo, h]

theorem step_CUR_of_no_construction {p : Fin 16} (h : s.Takes (c :: cmds) rest) (hs : s.SEEDED = true)
    (hp : s.CUR = some p) (hc : decodesTo constructs c = false) (ht : step s = .next t) :
    t.SEEDED = true ∧ t.CUR = some (if decodesTo (· == .next) c then p + 1 else p) := by
  cases hd : decode c with
  | error e =>
    rw [step_of_illegal h.idle h.next hd] at ht
    cases ht
    rw [decodesTo_of_error hd]
    exact ⟨hs, hp⟩
  | ok i =>
    rw [step_of_command h.idle h.next hd] at ht
    rw [decodesTo_of_ok hd] at hc ⊢
    exact exec_CUR_of_no_construction ht hc hs hp

theorem cursor_add_succ (p : Fin 16) (n : Nat) : p + 1 + Fin.ofNat 16 n = p + Fin.ofNat 16 (n + 1) := by
  apply Fin.ext
  simp only [Fin.val_add, Fin.val_ofNat, Fin.val_one]
  omega

theorem decode_ne_selfseed_of_no_construction (hc : decodesTo constructs c = false) : decode c ≠ .ok .selfseed := by
  intro hd
  rw [decodesTo_of_ok hd] at hc
  cases hc

/-- R88 for any commands that construct nothing. -/
theorem run_CUR_of_no_construction {p : Fin 16} (h : s.Takes cmds rest) (hs : s.SEEDED = true) (hp : s.CUR = some p)
    (hc : ∀ c ∈ cmds, decodesTo constructs c = false) :
    ∃ t, s.run cmds.length = .next t ∧ t.CUR = some (p + Fin.ofNat 16 (cmds.countP (decodesTo (· == .next)))) := by
  induction cmds generalizing s p with
  | nil => exact ⟨s, rfl, by rw [hp]; exact congrArg some (add_zero p).symm⟩
  | cons c cmds ih =>
    obtain ⟨hcc, hcs⟩ := List.forall_mem_cons.mp hc
    obtain ⟨u, hu⟩ := h.step_completes
    obtain ⟨hus, hup⟩ := step_CUR_of_no_construction h hs hp hcc hu
    obtain ⟨t, hrun, ht⟩ := ih (h.of_step (decode_ne_selfseed_of_no_construction hcc) hu) hus hup hcs
    refine ⟨t, (State.run_succ hu _).trans hrun, ht.trans ?_⟩
    cases hn : decodesTo (· == .next) c with
    | true => rw [List.countP_cons_of_pos hn, if_pos rfl, cursor_add_succ]
    | false => rw [List.countP_cons_of_neg (by simp [hn]), if_neg Bool.false_ne_true]

end

/-! ### The statements -/

/-- Settles O12: each command answers alike on engines with equal S, CUR and SEEDED, and keeps these equal. -/
theorem equalEnginesAnswerAlike : Obligations.EqualEnginesAnswerAlike := by
  intro cmds a b restA restB hva hvb hS hC hpa hpb hd hia hib
  obtain ⟨ta, tb, out, hta, htb, hlen, hra, hrb, ht⟩ :=
    run_sameEngine (.of_valuesAgree hva hvb hS hC) ⟨hva, hpa, hia⟩ ⟨hvb, hpb, hib⟩ hd
  exact ⟨ta, tb, out, hta, htb, hlen, hra, hrb, ht.words, ht.cursor, ht.flag⟩

/-- Settles O13, from what a row of NEXT commands does to engines rotated against each other. -/
theorem rotatedEnginesGiveEqualOutputs : Obligations.RotatedEnginesGiveEqualOutputs := by
  intro n k a b restA restB hv ha hb hpa hpb h hia hib
  obtain ⟨ta, tb, out, hta, htb, ht, hlen, _, hra, hrb⟩ := run_nexts_rotated n h hv ha hb hpa hpb hia hib
  exact ⟨ta, tb, out, hta, htb, ht, hlen, hra, hrb⟩

/-- Settles O8: the seeded, the unseeded and the illegal form. -/
theorem nextIsOneXorshiftStep : Obligations.NextIsOneXorshiftStep :=
  ⟨decode_encode (i := .next) rfl, fun _ _ _ _ hs hc h0 h1 => execNext_of_values hs hc h0 h1,
    fun _ hs => execNext_of_unseeded hs, answersIllegalForms_op .next⟩

/-- Settles O9: the mix rearranged. -/
theorem nextClosedForm : Obligations.NextClosedForm := by
  intro s t c s0 s1 hs hc h0 h1 ht u stored
  have hmix : mix s0 s1 = stored := mix_eq_closed_form s0 s1
  refine ⟨hmix ▸ stored_of_execNext hs hc h0 h1 ht, ?_⟩
  rw [eq_drawn_of_execNext hs hc h0 h1 ht, State.drawn_responses, hmix]
  rfl

/-- Settles O10: an unseeded NEXT only answers, and a seeded one also moves the cursor and writes the word there. -/
theorem nextFrame : Obligations.NextFrame := by
  intro s t ht
  rcases execNext_cases ht with ⟨_, rfl⟩ | ⟨hs, c, s0, s1, hc, _, _, rfl⟩
  · exact ⟨fun _ _ => rfl, fun _ => ⟨rfl, rfl⟩, rfl, rfl, rfl, rfl, _, rfl⟩
  · refine ⟨fun i hi => ?_, fun hf => ?_, rfl, rfl, rfl, rfl, _, rfl⟩
    · rw [State.drawn_getElem, if_neg (hi c hc).symm]
    · rw [hs] at hf
      cases hf

/-- Settles O11: the mix and the output of zero words are zero. -/
theorem allZeroArrayIsAFixedPoint : Obligations.AllZeroArrayIsAFixedPoint :=
  ⟨fun _ _ hs hc h0 h1 => execNext_of_zeros hs hc h0 h1,
    fun n _ _ _ hp hs hc h0 hi => run_nexts_of_zeros n hp hs hc h0 hi⟩

/-- Settles O14: a run counts its NEXT commands, and SEED of sixteen words starts one at 0. -/
theorem cursorCountsSuccessfulNexts : Obligations.CursorCountsSuccessfulNexts := by
  refine ⟨fun cmds s c rest hv hs hc hp hn hi => run_CUR_of_no_construction ⟨hv, hp, hi⟩ hs hc hn, ?_⟩
  intro d cmds s rest hd hp hn hi
  let u := ((s.withInputs (cmds.map .command ++ rest)).constructed d).respond .ok []
  have hstep : step s = .next u :=
    (step_of_command hp hi (decode_encode (by simp [Instr.wellFormed, hd]))).trans (execSeed_of_sixteen hd _)
  have hs : u.SEEDED = true := by simp [u]
  have hc : u.CUR = some 0 := by simp [u]
  have hv : u.ValuesAgree := .of_seeded hs (by rw [hc]; rfl) fun i => by
    rw [State.respond_S, State.constructed_getElem]
    simp [hd]
  have hu : u.Takes cmds rest := ⟨hv, by simp [u, hp], by simp [u]⟩
  obtain ⟨t, hrun, ht⟩ := run_CUR_of_no_construction hu hs hc hn
  exact ⟨t, (State.run_succ hstep _).trans hrun, by rw [ht, zero_add]⟩

/-- Settles O15: the three stored words are the mixes of the three pairs. -/
theorem storedWordIsLinear : Obligations.StoredWordIsLinear := by
  intro a b x ta tb tx c a0 a1 b0 b1 hsa hsb hsx hca hcb hcx ha0 ha1 hb0 hb1 hx0 hx1 hta htb htx
  refine ⟨_, _, stored_of_execNext hsa hca ha0 ha1 hta, stored_of_execNext hsb hcb hb0 hb1 htb, ?_⟩
  rw [stored_of_execNext hsx hcx hx0 hx1 htx, mix_xor]

end Sys2Proof.Machine
end

section
/-! PROOFS. Seeding and the state array (spec/41_seed_and_state.md): SEED, SETSEED and GETSTATE whole, the sequence
after SEED (R102, R122), and SELFSEED from its draws, from a failing draw and without an answer (R110 to R117). -/

namespace Sys2Proof.Machine

/-! ### Sixteen words as the array -/

theorem State.loadArray_toList (s : State) (d : Vector Word 16) :
    s.loadArray d.toList = { s with S := Vector.ofFn fun i : Fin 16 => some d[i] } := by
  simp [State.loadArray]

/-! ### After SEED -/

theorem step_of_issued_seed {s : State} {d : List Word} {is : List Instr} {rest : List Input} (hd : d.length = 16)
    (hp : s.pending = none) (hi : s.inputs = issue (.seed d :: is) ++ rest) :
    step s = .next (((s.withInputs (issue is ++ rest)).constructed d).respond .ok []) :=
  (step_of_issued hp hi (by simp [Instr.wellFormed, hd])).trans (execSeed_of_sixteen hd _)

/-- Engines that SEED gave the same words are rotated against each other by no place. -/
theorem rotatedBy_zero_constructed (a b : State) (d : List Word) : RotatedBy 0 (a.constructed d) (b.constructed d) where
  words i := by simp only [add_zero, State.constructed_getElem]
  cursor := rfl

theorem State.ValuesAgree.constructed {d : List Word} (hd : d.length = 16) (s : State) :
    (s.constructed d).ValuesAgree :=
  .of_seeded rfl rfl fun i => by rw [State.constructed_getElem]; simp [hd]

/-- A seeded engine that holds the words `w` and stands at cursor `c`. -/
def State.snapshotted (w : Vector Word 16) (c : Fin 16) : State := (State.reset.constructed w.toList).writeCur c

theorem State.snapshotted_getElem (w : Vector Word 16) (c i : Fin 16) : (State.snapshotted w c).S[i] = some w[i] := by
  have h := State.reset.constructed_getElem w.toList i
  simpa [State.snapshotted] using h

/-- The word 1 before fifteen zero words: NEXT reads the 1 at cursor 0 and only zero words at cursor 1. -/
def oneThenZeros : Vector Word 16 := Vector.ofFn fun i => if i = 0 then 1#64 else 0#64

theorem oneThenZeros_getElem (i : Fin 16) : oneThenZeros[i] = if i = 0 then 1#64 else 0#64 := by
  simp [oneThenZeros]

/-- NEXT answers the words 1, 0 otherwise than 0, 0. -/
theorem output_mix_ne : output (mix 0#64 0#64) ≠ output (mix 1#64 0#64) := by decide

/-! ### SELFSEED by what the entropy source answers -/

section
variable {s : State} {draws : List (BitVec s.entropyWidth.bits)} {rest : List Input}

theorem execSelfseed_of_answers (hl : draws.length = totalDraws s.entropyWidth)
    (hi : s.inputs = answers s.entropyWidth draws ++ rest) :
    execSelfseed s = .next (s.selfseeded (draws.map (Draw.mk s.entropyWidth)) rest) := by
  have h0 : draws ≠ [] := List.ne_nil_of_length_pos (hl ▸ totalDraws_pos _)
  have ht := takeDraws_complete draws [] rest (by simpa using hl) h0
  rw [execSelfseed, State.drawEntropy_of_complete (hi ▸ ht), List.nil_append]

/-- Fewer answers than draws leave the engine asking at what comes next, with the draws so far. -/
theorem takeDraws_inputs (hl : draws.length < totalDraws s.entropyWidth)
    (hi : s.inputs = answers s.entropyWidth draws ++ rest) :
    takeDraws s.entropyWidth [] s.inputs =
      takeDraws s.entropyWidth (draws.map (Draw.mk s.entropyWidth)) rest := by
  rw [hi, takeDraws_answers draws [] rest (by simpa using hl), List.nil_append]

theorem execSelfseed_of_fail (hl : draws.length < totalDraws s.entropyWidth)
    (hi : s.inputs = answers s.entropyWidth draws ++ .entropy .fail :: rest) :
    execSelfseed s = .next (((s.withInputs rest).withPending none).raise .entropy) := by
  rw [execSelfseed, State.drawEntropy_of_failed (takeDraws_inputs hl hi)]

theorem execSelfseed_of_no_answer (hl : draws.length < totalDraws s.entropyWidth)
    (hi : s.inputs = answers s.entropyWidth draws ++ rest) (hr : startsWithAnswer s.entropyWidth rest = false) :
    execSelfseed s =
      .next ((s.withInputs rest).withPending (some (draws.map (Draw.mk s.entropyWidth)))) := by
  rw [execSelfseed, State.drawEntropy_of_waiting ((takeDraws_inputs hl hi).trans (takeDraws_no_answer hr))]

end

/-! ### The assembled array (R112, R113, R114) -/

/-- Word `i` of the array, written out from the zero-extended draws `e 0`, `e 1`, ... of the whole SELFSEED. -/
def wordFromDraws (w : EntropyWidth) (e : Nat → Word) (i : Nat) : Word :=
  match w with
  | .w64 => e i
  | .w32 => (e (2 * i) &&& 0x00000000FFFFFFFF#64) ||| (e (2 * i + 1) <<< 32)
  | .w16 => (e (4 * i) &&& 0xFFFF#64) ||| ((e (4 * i + 1) &&& 0xFFFF#64) <<< 16) |||
      ((e (4 * i + 2) &&& 0xFFFF#64) <<< 32) ||| ((e (4 * i + 3) &&& 0xFFFF#64) <<< 48)

/-- The draws of word `i` are the `i`-th group of 64 / ENTROPY_WIDTH. -/
theorem assemble_group (w : EntropyWidth) (e : Nat → Word) (i : Nat) :
    assemble w ((List.range' (i * (64 / w.bits)) (64 / w.bits)).map e) = wordFromDraws w e i := by
  cases w with
  | w16 =>
    change assemble16 0 ((List.range' (i * 4) 4).map e) = _
    simp [List.range', assemble16, wordFromDraws, Nat.mul_comm i, BitVec.or_assoc]
  | w32 =>
    change assemble .w32 ((List.range' (i * 2) 2).map e) = _
    simp [List.range', assemble, wordFromDraws, Nat.mul_comm i]
  | w64 =>
    change assemble .w64 ((List.range' (i * 1) 1).map e) = _
    simp [List.range', assemble, wordFromDraws]

/-- A list whose elements are the values of `e` has, from place `a` on, the values of `e` from `a` on. -/
theorem map_take_drop_eq_range' {α β : Type} {f : α → β} {e : Nat → β} {l : List α} {a n : Nat}
    (he : ∀ j, j < l.length → l[j]?.map f = some (e j)) (hn : a + n ≤ l.length) :
    ((l.drop a).take n).map f = (List.range' a n).map e := by
  apply List.ext_getElem?
  intro k
  by_cases hk : k < n
  · simp [hk, List.getElem?_take_of_lt, he (a + k) (by omega)]
  · simp [hk]

theorem assembleArray_eq_wordFromDraws {w : EntropyWidth} {draws : List (BitVec w.bits)} {e : Nat → Word}
    (hl : draws.length = 16 * (64 / w.bits))
    (he : ∀ j, j < draws.length → draws[j]?.map (BitVec.setWidth 64) = some (e j)) {i : Nat} (hi : i < 16) :
    (assembleArray w (draws.map (Draw.mk w)))[i]? = some (wordFromDraws w e i) := by
  have hn : i * (64 / w.bits) + 64 / w.bits ≤ draws.length := by
    rw [hl, ← Nat.succ_mul]
    exact Nat.mul_le_mul_right _ hi
  rw [assembleArray_getElem? w draws hi, map_take_drop_eq_range' he hn, assemble_group]

/-! ### The statements -/

/-- Settles O16: SEED of sixteen words constructs, and its illegal forms are those of R66. -/
theorem seedLoadsThePayloadAndZeroesTheCursor : Obligations.SeedLoadsThePayloadAndZeroesTheCursor := by
  obtain ⟨_, hdecode, _⟩ := fiveCommandWordsAndNoOther
  refine ⟨hdecode, fun d s => ?_, answersIllegalForms_op .seed⟩
  refine (execSeed_of_sixteen d.length_toList s).trans ?_
  rw [State.loadArray_toList]
  rfl

/-- Settles O17: the seeded, the unseeded and the illegal forms. -/
theorem setseedLoadsThePayloadAndKeepsTheCursor : Obligations.SetseedLoadsThePayloadAndKeepsTheCursor := by
  obtain ⟨_, _, hdecode, _⟩ := fiveCommandWordsAndNoOther
  refine ⟨hdecode, fun d s hs => ?_, fun d s hs => execSetseed_of_unseeded d.length_toList hs,
    answersIllegalForms_op .setseed⟩
  refine (execSetseed_of_seeded d.length_toList hs).trans ?_
  rw [State.loadArray_toList]
  rfl

/-- Settles O19: GETSTATE answers the array's words, and a second one finds the array as it was. -/
theorem getstateReturnsTheArrayAndChangesNothing : Obligations.GetstateReturnsTheArrayAndChangesNothing := by
  refine ⟨decode_encode (i := .getstate) rfl, fun ws s hs hw => ?_, fun s hs => execGetstate_of_unseeded hs,
    answersIllegalForms_op .getstate⟩
  have hS := State.toList_of_values hw
  refine ⟨execGetstate_of_values hs hS, ?_⟩
  refine (execGetstate_of_values (s := s.respond .ok ws.toList) hs hS).trans ?_
  simp [State.respond]

/-- Settles O22: after SEED the two engines are rotated by no place, so their NEXT commands answer alike. -/
theorem seedReproducesTheSequence : Obligations.SeedReproducesTheSequence := by
  intro d n a b restA restB hd hpa hpb hia hib
  let a' := a.withInputs (issue (expandSkip n) ++ restA)
  let b' := b.withInputs (issue (expandSkip n) ++ restB)
  have hrot := rotatedBy_zero_constructed a' b' d
  obtain ⟨ta, tb, out, hra, hrb, _, hlen, hok, hta, htb⟩ := run_nexts_rotated n
    (a := (a'.constructed d).respond .ok []) (b := (b'.constructed d).respond .ok []) ⟨hrot.words, hrot.cursor⟩
    ((State.ValuesAgree.constructed hd a').of_eq rfl rfl rfl) rfl rfl hpa hpb rfl rfl
  refine ⟨ta, tb, ⟨0x00#8, []⟩ :: out, ?_, ?_, by simp [hlen], by simpa using hok, by simpa [a'] using hta,
    by simpa [b'] using htb⟩
  · rw [State.run_succ (step_of_issued_seed hd hpa hia), hra]
  · rw [State.run_succ (step_of_issued_seed hd hpb hib), hrb]

/-- Settles O24: at cursor 0 a plain SEED is RESUME by no place; the words 1, 0, ..., 0 snapshotted at cursor 1
answer 0 there and not 0 after SEED. -/
theorem plainSeedContinuesFromCursorZeroAndCanDifferElsewhere :
    Obligations.PlainSeedContinuesFromCursorZeroAndCanDifferElsewhere := by
  constructor
  · intro m w a b restA restB hs hc hw hpa hpb hia hib
    obtain ⟨_, hresume⟩ := resumeContinuesTheSnapshot
    have hzero : expandResume 0 w.toList = [.seed w.toList] := by simp [expandResume]
    obtain ⟨ta, tb, out, hra, hrb, hlen, _, hta, htb⟩ :=
      hresume m 0 w a b restA restB hs hc hw hpa hpb hia (by rw [hzero]; exact hib)
    exact ⟨ta, tb, out, hra, hrb, hlen, hta, htb⟩
  · let w := oneThenZeros
    let a := State.snapshotted w 1
    let b := (a.constructed w.toList).respond .ok []
    have hw : ∀ i : Fin 16, a.S[i] = some w[i] := State.snapshotted_getElem w 1
    have ha (i : Fin 16) : a.S[i] = some (if i = 0 then 1#64 else 0#64) :=
      (hw i).trans (congrArg some (oneThenZeros_getElem i))
    have hb (i : Fin 16) : b.S[i] = some (if i = 0 then 1#64 else 0#64) := by
      rw [State.respond_S, State.constructed_getElem, ← oneThenZeros_getElem]
      simp [w]
    refine ⟨w, a, b, _, _, _, _, 1, by decide, rfl, rfl, hw, execSeed_of_sixteen w.length_toList a,
      execNext_of_values rfl rfl (ha 1) (ha 2), execNext_of_values rfl rfl (hb 0) (hb 1),
      State.drawn_responses _ _ _, State.drawn_responses _ _ _, ?_⟩
    simpa using output_mix_ne

/-- Settles O25: every draw answered, a draw failing, and the illegal forms. -/
theorem selfseedConstructsFromTheDrawsOrFails : Obligations.SelfseedConstructsFromTheDrawsOrFails := by
  refine ⟨decode_encode (i := .selfseed) rfl, fun s draws rest e hl hi he => ?_,
    fun s draws rest hl hi => execSelfseed_of_fail (by rwa [totalDraws_eq]) hi, answersIllegalForms_op .selfseed⟩
  refine (execSelfseed_of_answers (by rwa [totalDraws_eq]) hi).trans (congrArg Host.Outcome.next ?_)
  have hS : (s.selfseeded (draws.map (Draw.mk s.entropyWidth)) rest).S =
      Vector.ofFn fun i : Fin 16 => some (wordFromDraws s.entropyWidth e i) :=
    congrArg Vector.ofFn (funext fun i => assembleArray_eq_wordFromDraws hl he i.isLt)
  exact State.ext_fields hS rfl rfl rfl rfl rfl rfl

/-- Settles O26: with the answers used up SELFSEED waits, and a waiting engine without input has no step. -/
theorem unansweredDrawLeavesTheEngineStuck : Obligations.UnansweredDrawLeavesTheEngineStuck := by
  intro s draws hl hi got
  exact ⟨execSelfseed_of_no_answer (by rwa [totalDraws_eq]) (hi.trans (List.append_nil _).symm) rfl,
    step_of_waiting_without_input rfl rfl⟩

/-- Settles O28: of the three ends of a SELFSEED the wait is not over, and the other two have the counts. -/
theorem selfseedDrawCount : Obligations.SelfseedDrawCount := by
  intro s t h hp
  cases h
  rw [← totalDraws_eq]
  rcases s.drawEntropy_cases [] (totalDraws_pos _) with
    ⟨draws, rest, ht, hi, hl⟩ | ⟨draws, rest, ht, hi, hl⟩ | ⟨draws, rest, ht, _⟩
  · exact .inl ⟨by simp [ht], draws, by simpa using hl, by simpa [ht] using hi⟩
  · exact .inr ⟨by simp [ht], draws, by simpa using hl, by simpa [ht] using hi⟩
  · simp [ht] at hp

end Sys2Proof.Machine
end

section
/-! PROOFS. Errors and the ports (spec/60_exceptions.md): the priority and the effect of the errors (R133, R136, R138),
answers that come after a wait (R146, R147), several engines and a shared entropy source (R148), a second host
(R149). -/

namespace Sys2Proof.Machine

/-! ### Which commands an engine answers with an error -/

/-- R133: a command that decodes and constructs nothing is answered ERR_UNSEEDED by an unseeded engine. -/
theorem exec_of_unseeded {i : Instr} {s : State} (hw : i.wellFormed = true) (hc : constructs i = false)
    (hs : s.SEEDED = false) : exec i s = .next (s.raise .unseeded) := by
  cases i with
  | next => exact execNext_of_unseeded hs
  | seed d => cases hc
  | setseed d => exact execSetseed_of_unseeded (eq_of_beq hw) hs
  | selfseed => cases hc
  | getstate => exact execGetstate_of_unseeded hs

/-- A command that decodes, and constructs or finds a seeded engine, answers OK; of SELFSEED see
`execSelfseed_cases`. -/
theorem exec_responds_ok {i : Instr} {s t : State} (hw : i.wellFormed = true) (hi : i ≠ .selfseed)
    (hgo : constructs i = false → s.SEEDED = true) (h : exec i s = .next t) :
    ∃ data, t.responses = s.responses ++ [⟨0x00#8, data⟩] := by
  cases i with
  | next =>
    rcases execNext_cases h with ⟨hs, _⟩ | ⟨_, c, s0, s1, _, _, _, rfl⟩
    · cases hs.symm.trans (hgo rfl)
    · exact ⟨_, rfl⟩
  | seed d =>
    rcases execSeed_cases h with ⟨_, rfl⟩ | ⟨hd, _⟩
    · exact ⟨_, rfl⟩
    · exact absurd (eq_of_beq hw) hd
  | setseed d =>
    rcases execSetseed_cases h with ⟨_, _, rfl⟩ | ⟨_, hs, _⟩ | ⟨hd, _⟩
    · exact ⟨_, rfl⟩
    · cases hs.symm.trans (hgo rfl)
    · exact absurd (eq_of_beq hw) hd
  | selfseed => exact absurd rfl hi
  | getstate =>
    rcases execGetstate_cases h with ⟨_, ws, _, rfl⟩ | ⟨hs, _⟩
    · exact ⟨_, rfl⟩
    · cases hs.symm.trans (hgo rfl)

/-- `Answered s c rest t r`: the idle engine `s`, whose inputs after the command `c` are `rest`, leaves `t` and answers
`r` in one of R131's four ways, under R138's conditions. What an error leaves is said; of OK only the response is. -/
inductive Answered (s : State) (c : Command) (rest : List Input) : State → Response → Prop
  | illegal {e : Illegal} : decode c = .error e → Answered s c rest ((s.withInputs rest).raise .illegal) ⟨0x01#8, []⟩
  | unseeded {i : Instr} : decode c = .ok i → constructs i = false → s.SEEDED = false →
      Answered s c rest ((s.withInputs rest).raise .unseeded) ⟨0x02#8, []⟩
  | entropy (left : List Input) : decode c = .ok .selfseed →
      Answered s c rest (((s.withInputs left).withPending none).raise .entropy) ⟨0x03#8, []⟩
  | ok {i : Instr} (t : State) (data : List Word) : decode c = .ok i → (constructs i = false → s.SEEDED = true) →
      Answered s c rest t ⟨0x00#8, data⟩

/-- A command that is answered at an idle engine is answered in one of the four ways. -/
theorem step_answered {s t : State} {c : Command} {rest : List Input} {r : Response} (hp : s.pending = none)
    (hi : s.inputs = .command c :: rest) (h : step s = .next t) (hr : t.responses = s.responses ++ [r]) :
    Answered s c rest t r := by
  cases hd : decode c with
  | error e =>
    rw [step_of_illegal hp hi hd] at h
    cases h
    obtain rfl : ⟨0x01#8, []⟩ = r := by simpa using hr
    exact .illegal hd
  | ok i =>
    rw [step_of_command hp hi hd] at h
    obtain ⟨hw, _⟩ := decode_eq_ok_iff.mp hd
    by_cases hu : constructs i = false ∧ s.SEEDED = false
    · obtain ⟨hc, hs⟩ := hu
      rw [exec_of_unseeded (s := s.withInputs rest) hw hc hs] at h
      cases h
      obtain rfl : ⟨0x02#8, []⟩ = r := by simpa using hr
      exact .unseeded hd hc hs
    · have hgo : constructs i = false → s.SEEDED = true := by simpa using hu
      by_cases hself : i = .selfseed
      · subst hself
        rcases execSelfseed_cases h with ⟨draws, left, rfl, _⟩ | ⟨left, rfl, _⟩ | ⟨draws, left, rfl, _⟩
        · obtain rfl : ⟨0x00#8, []⟩ = r := by simpa using hr
          exact .ok _ [] hd hgo
        · obtain rfl : ⟨0x03#8, []⟩ = r := by simpa using hr
          exact .entropy left hd
        · simp at hr
      · obtain ⟨data, ht⟩ := exec_responds_ok (s := s.withInputs rest) hw hself hgo h
        obtain rfl : ⟨0x00#8, data⟩ = r := by simpa [ht] using hr
        exact .ok t data hd hgo

/-! ### An unseeded engine (R133) -/

/-- The error with which an unseeded engine answers a command that does not construct. -/
def unseededStatus (c : Command) : Status := if decodesTo (fun _ => true) c then .errUnseeded else .errIllegal

theorem unseededStatus_code (c : Command) :
    (unseededStatus c).code = if decodesTo (fun _ => true) c then 0x02#8 else 0x01#8 := apply_ite Status.code _ _ _

theorem step_of_unseeded {s : State} {c : Command} {rest : List Input} (hp : s.pending = none)
    (hs : s.SEEDED = false) (hc : decodesTo constructs c = false) (hi : s.inputs = .command c :: rest) :
    step s = .next ((s.withInputs rest).respond (unseededStatus c) []) := by
  cases hd : decode c with
  | error e =>
    rw [step_of_illegal hp hi hd, unseededStatus, decodesTo_of_error hd]
    rfl
  | ok i =>
    obtain ⟨hw, _⟩ := decode_eq_ok_iff.mp hd
    rw [decodesTo_of_ok hd] at hc
    rw [step_of_command hp hi hd, exec_of_unseeded (s := s.withInputs rest) hw hc hs, unseededStatus,
      decodesTo_of_ok hd]
    rfl

/-! ### Answers after a wait (R146, R147) -/

/-- What SELFSEED makes of its draws does not depend on whether it waited, nor on how many draws it had. -/
theorem State.drawEntropy_congr {a b : List Draw} {l m : List Input} (s : State) (p q : Option (List Draw))
    (h : takeDraws s.entropyWidth a l = takeDraws s.entropyWidth b m) :
    ((s.withInputs l).withPending p).drawEntropy a = ((s.withInputs m).withPending q).drawEntropy b := by
  cases hb : takeDraws s.entropyWidth b m with
  | complete draws rest => rw [State.drawEntropy_of_complete (h.trans hb), State.drawEntropy_of_complete hb]; rfl
  | failed rest => rw [State.drawEntropy_of_failed (h.trans hb), State.drawEntropy_of_failed hb]; rfl
  | waiting draws rest => rw [State.drawEntropy_of_waiting (h.trans hb), State.drawEntropy_of_waiting hb]; rfl

/-- A waiting engine whose next input is an answer goes on drawing. -/
theorem step_of_startsWithAnswer {s : State} {got : List Draw} (hp : s.pending = some got)
    (h : startsWithAnswer s.entropyWidth s.inputs = true) : step s = .next (s.drawEntropy got) := by
  unfold startsWithAnswer at h
  split at h
  · exact step_of_answer hp ‹_› h
  · cases h

/-! ### One outcome after another -/

section
variable {σ τ φ ρ : Type}

/-- Going on from a next state; a fault or a refusal is the end. -/
def andThen (o : Host.Outcome σ φ ρ) (f : σ → Host.Outcome τ φ ρ) : Host.Outcome τ φ ρ :=
  match o with
  | .next s => f s
  | .fault r => .fault r
  | .refused r => .refused r

/-- Why a run ended, if it did not go through. -/
def stopReason : Host.Outcome σ φ ρ → Option (φ ⊕ ρ)
  | .next _ => none
  | .fault r => some (.inl r)
  | .refused r => some (.inr r)

theorem stopReason_eq_none_iff {o : Host.Outcome σ φ ρ} : stopReason o = none ↔ ∃ s, o = .next s := by
  cases o <;> simp [stopReason]

theorem stopReason_eq_refused_iff {o : Host.Outcome σ φ ρ} {r : ρ} :
    stopReason o = some (.inr r) ↔ o = .refused r := by
  cases o <;> simp [stopReason]

theorem andThen_eq_next_iff {o : Host.Outcome σ φ ρ} {f : σ → Host.Outcome τ φ ρ} {t : τ} :
    andThen o f = .next t ↔ ∃ s, o = .next s ∧ f s = .next t := by
  cases o <;> simp [andThen]

theorem stopReason_andThen {o : Host.Outcome σ φ ρ} {f : σ → Host.Outcome τ φ ρ} {x : φ ⊕ ρ} :
    stopReason (andThen o f) = some x ↔ stopReason o = some x ∨ ∃ s, o = .next s ∧ stopReason (f s) = some x := by
  cases o <;> simp [andThen, stopReason]

end

/-! ### Several engines and each one's own turns (R148) -/

theorem stepsAlone_succ (n : Nat) (s : State) : stepsAlone (n + 1) s = andThen (turn s) (stepsAlone n) := by
  rw [stepsAlone]
  cases turn s <;> rfl

theorem stepEngines_cons (k : Nat) (ks : List Nat) (p : Platform) :
    stepEngines (k :: ks) p = andThen (stepEngine k p) (stepEngines ks) := by
  rw [stepEngines]
  cases stepEngine k p <;> rfl

theorem stepEngine_of_present {k : Nat} {p : Platform} {s : State} (h : p[k]? = some s) :
    stepEngine k p = andThen (turn s) fun t => .next (p.set k t) := by
  simp only [stepEngine, h]
  cases turn s <;> rfl

/-- What each engine's own turns, as many as the order gives it, come to alone. -/
def ownTurns (order : List Nat) (p : Platform) : List Result := p.mapIdx fun k s => stepsAlone (order.count k) s

theorem ownTurns_getElem? (order : List Nat) (p : Platform) (k : Nat) :
    (ownTurns order p)[k]? = p[k]?.map (stepsAlone (order.count k)) := List.getElem?_mapIdx

theorem mem_ownTurns {order : List Nat} {p : Platform} {o : Result} :
    o ∈ ownTurns order p ↔ ∃ k s, p[k]? = some s ∧ stepsAlone (order.count k) s = o := by
  simp only [List.mem_iff_getElem?, ownTurns_getElem?, Option.map_eq_some_iff]

/-- The turn of engine `k` is the first of its own turns and none of any other engine's. -/
theorem ownTurns_cons {k : Nat} {p q : Platform} (h : stepEngine k p = .next q) (ks : List Nat) :
    ownTurns (k :: ks) p = ownTurns ks q := by
  apply List.ext_getElem?
  intro j
  rw [ownTurns_getElem?, ownTurns_getElem?, List.count_cons]
  cases hk : p[k]? with
  | none =>
    obtain rfl : p = q := by rw [stepEngine_of_absent hk] at h; injection h
    by_cases hj : k = j
    · subst hj
      rw [hk]
      rfl
    · simp [hj]
  | some s =>
    rw [stepEngine_of_present hk] at h
    obtain ⟨t, ht, hq⟩ := andThen_eq_next_iff.mp h
    obtain rfl : p.set k t = q := by injection hq
    by_cases hj : k = j
    · subst hj
      obtain ⟨hlt, _⟩ := List.getElem?_eq_some_iff.mp hk
      simp [hk, List.getElem?_set_self hlt, stepsAlone_of_next ht]
    · simp [hj, List.getElem?_set_ne hj]

/-- A run that goes through leaves each engine as its own turns do. -/
theorem ownTurns_of_next {order : List Nat} {p q : Platform} (h : stepEngines order p = .next q) :
    ownTurns order p = q.map .next := by
  induction order generalizing p with
  | nil =>
    cases h
    refine List.ext_getElem? fun k => ?_
    rw [ownTurns_getElem?, List.getElem?_map]
    rfl
  | cons k ks ih =>
    rw [stepEngines_cons] at h
    obtain ⟨u, hu, h⟩ := andThen_eq_next_iff.mp h
    rw [ownTurns_cons hu, ih h]

/-- A run that stops is one in which some engine's own turns stop, for the same reason. -/
theorem exists_ownTurns_of_stop {order : List Nat} {p : Platform} {x : Fault ⊕ Refusal}
    (h : stopReason (stepEngines order p) = some x) : ∃ o ∈ ownTurns order p, stopReason o = some x := by
  induction order generalizing p with
  | nil => cases h
  | cons k ks ih =>
    rw [stepEngines_cons, stopReason_andThen] at h
    rcases h with h | ⟨q, hq, h⟩
    · cases hk : p[k]? with
      | none => rw [stepEngine_of_absent hk] at h; cases h
      | some s =>
        rw [stepEngine_of_present hk, stopReason_andThen] at h
        rcases h with h | ⟨_, _, h⟩
        · refine ⟨_, mem_ownTurns.mpr ⟨k, s, hk, rfl⟩, ?_⟩
          rw [List.count_cons_self, stepsAlone_succ, stopReason_andThen]
          exact .inl h
        · cases h
    · rw [ownTurns_cons hq]
      exact ih h

/-! ### A shared entropy source (R148) -/

theorem deliver_getElem? (j : Nat) (a : EntropyAnswer) (p : Platform) (k : Nat) :
    (deliver j a p)[k]? =
      p[k]?.map fun s => if j = k then s.withInputs (s.inputs ++ [.entropy a]) else s := by
  unfold deliver
  split
  next hj =>
    by_cases hk : j = k
    · subst hk
      rw [hj]
      rfl
    · simp [hk]
  next s hj =>
    by_cases hk : j = k
    · subst hk
      obtain ⟨hlt, _⟩ := List.getElem?_eq_some_iff.mp hj
      simp [hj, List.getElem?_set_self hlt]
    · simp [hk, List.getElem?_set_ne hk]

/-! ### The statements -/

/-- Settles O27: the waiting engine has the draws that SELFSEED would have had when it came to the late answers. -/
theorem lateAnswersGiveTheSameSelfseed : Obligations.LateAnswersGiveTheSameSelfseed := by
  intro s t draws late hl hlate ht
  rw [← totalDraws_eq] at hl
  have hwait := execSelfseed_of_no_answer (s := s.withInputs (answers s.entropyWidth draws)) hl
    (List.append_nil _).symm rfl
  obtain rfl := Host.Outcome.next.inj (hwait.symm.trans ht)
  have hdraws := takeDraws_inputs (s := s.withInputs (answers s.entropyWidth draws ++ late)) hl rfl
  refine (step_of_startsWithAnswer rfl hlate).trans (congrArg Host.Outcome.next ?_)
  exact s.drawEntropy_congr _ s.pending hdraws.symm

/-- Settles O33: each of the four ways to answer has its own status and its own condition. -/
theorem oneStatusInPriorityOrder : Obligations.OneStatusInPriorityOrder := by
  intro s t c rest r hp hi h hr
  cases step_answered hp hi h hr with
  | illegal hd => simp [hd]
  | unseeded hd hc hs => simp [hd, hc, hs]
  | entropy left hd => simp [hd, constructs]
  | ok t data hd hgo => simpa [hd] using hgo

/-- Settles O34, by induction on the commands: each is answered with its error and changes nothing else. -/
theorem unseededEngineAnswersOnlyErrors : Obligations.UnseededEngineAnswersOnlyErrors := by
  intro cmds
  induction cmds with
  | nil =>
    intro s rest _ _ _ hi
    obtain rfl : s.inputs = rest := hi
    simp
  | cons c cmds ih =>
    intro s rest hp hs hc hi
    obtain ⟨hcc, hcs⟩ := List.forall_mem_cons.mp hc
    let u := (s.withInputs (cmds.map .command ++ rest)).respond (unseededStatus c) []
    have hstep : step s = .next u := step_of_unseeded hp hs hcc hi
    rw [List.length_cons, State.run_succ hstep, ih u rest hp hs hcs rfl]
    simp [u, State.respond, State.withInputs, unseededStatus_code]

/-- Settles O36: only the three errors have these statuses, and each says what it leaves. -/
theorem errorsArePrecise : Obligations.ErrorsArePrecise := by
  intro s t c rest r hp hi h hr
  cases step_answered hp hi h hr with
  | illegal hd => exact ⟨fun _ => rfl, nofun⟩
  | unseeded hd hc hs => exact ⟨fun _ => rfl, nofun⟩
  | entropy left hd =>
    exact ⟨nofun, fun _ => ⟨rfl, rfl, State.unseed_getElem ((s.withInputs left).withPending none), rfl, rfl⟩⟩
  | ok t data hd hgo => exact ⟨nofun, nofun⟩

/-- Settles O49: a run that goes through leaves what the own turns do, and one that stops has own turns that stop. -/
theorem enginesAreIndependent : Obligations.EnginesAreIndependent := by
  intro order p
  have hthrough (q : Platform) (h : stepEngines order p = .next q) (k : Nat) (s : State) (hk : p[k]? = some s) :
      ∃ t, stepsAlone (order.count k) s = .next t ∧ q[k]? = some t := by
    have hown := ownTurns_getElem? order p k
    rw [ownTurns_of_next h, List.getElem?_map, hk] at hown
    obtain ⟨t, hq, ht⟩ := Option.map_eq_some_iff.mp hown
    exact ⟨t, ht.symm, hq⟩
  refine ⟨⟨?_, fun halone => ?_⟩, fun q h => ⟨?_, hthrough q h⟩, fun r h => ?_⟩
  · rintro ⟨q, h⟩ k s hk
    obtain ⟨t, ht, _⟩ := hthrough q h k s hk
    exact ⟨t, ht⟩
  · rw [← stopReason_eq_none_iff, Option.eq_none_iff_forall_ne_some]
    intro x hx
    obtain ⟨o, ho, hox⟩ := exists_ownTurns_of_stop hx
    obtain ⟨k, s, hk, rfl⟩ := mem_ownTurns.mp ho
    rw [stopReason_eq_none_iff.mpr (halone k s hk)] at hox
    cases hox
  · simpa [ownTurns] using (congrArg List.length (ownTurns_of_next h)).symm
  · obtain ⟨o, ho, hor⟩ := exists_ownTurns_of_stop (stopReason_eq_refused_iff.mpr h)
    obtain ⟨k, s, hk, rfl⟩ := mem_ownTurns.mp ho
    exact ⟨k, s, hk, stopReason_eq_refused_iff.mp hor⟩

/-- Settles O51, by induction on the answers: each goes to one engine, behind those before it. -/
theorem sharedEntropyReachesEachEngineInOrder : Obligations.SharedEntropyReachesEachEngineInOrder := by
  intro l
  induction l with
  | nil => intro p k; simp [deliverAll]
  | cons x l ih =>
    intro p k
    obtain ⟨j, a⟩ := x
    rw [deliverAll, ih, deliver_getElem?, Option.map_map]
    by_cases hj : j = k
    · simp [hj, Function.comp_def, State.withInputs]
    · simp [hj, Function.comp_def]

/-- Settles O32, from the frame of every command but SELFSEED. -/
theorem onlySelfseedUsesTheEntropyPort : Obligations.OnlySelfseedUsesTheEntropyPort := by
  intro i s t hi h
  obtain ⟨hp, hin, _⟩ := exec_frame_of_ne_selfseed hi h
  exact ⟨hin, hp⟩

/-- Settles O47. -/
theorem secondHostIsRefused : Obligations.SecondHostIsRefused := fun _ _ _ => step_of_secondHost

end Sys2Proof.Machine
end

section
/-! PROOFS. Reset (spec/70_reset_and_hazards.md): what it leaves, between commands and in the middle of one (R160, R161). -/

namespace Sys2Proof.Machine

/-- The state that R160 and R161 describe: ⊥ in S and CUR, UNSEEDED, nothing in progress, all else as it was. -/
theorem State.applyReset_withInputs (s : State) (rest : List Input) :
    (s.withInputs rest).applyReset =
      { s with S := Vector.replicate 16 none, CUR := none, SEEDED := false, pending := none, inputs := rest } := rfl

/-- Settles O38: both kinds of reset are one step that applies the reset, and neither adds a response. -/
theorem resetAbortsTheCommand : Obligations.ResetAbortsTheCommand := by
  intro s c rest h
  rw [← State.applyReset_withInputs]
  rcases h with hreset | ⟨hidle, hduring⟩
  · exact step_of_reset hreset
  · exact step_of_resetDuring hidle hduring

end Sys2Proof.Machine
end
